-- ==== Sys2Proof/Word.lean ====
section
/-!
DEFINITION. The word types of the core (spec/10_state.md R20, spec/00_scope.md R5): an 8-bit byte, the width of a
general register and of a memory cell, and a 16-bit word, the width of `I`, of `pc`, of a stack slot and of an
instruction. Every value of the core is unsigned (R6).
-/

namespace Sys2Proof

/-- A byte: a general register, a memory cell, the delay timer (R21, R29, R33). -/
abbrev Byte := BitVec 8

/-- A 16-bit word: `I`, `pc`, a call-stack slot, an instruction word (R24, R25, R27, R90). -/
abbrev Word := BitVec 16

end Sys2Proof
end

