-- ==== Sys2Proof/Syntax.lean ====
section
/-!
DEFINITION. The instructions of the core as syntax: one constructor per row of spec/opcode_table.json (the 33 rows of
spec/30_encoding.md R96), in the table's order, each carrying the fields its format uses (R92, R103) at the width the
word gives them, so that a register number, an immediate or an address out of range cannot be written down.
-/

namespace Sys2Proof

/-- An instruction (R96). `x` and `y` are register numbers, `nn` an immediate byte, `nnn` a 12-bit address and `n` a
row count (R91, R93). -/
inductive Instr where
  /-- `00E0`, `CLS` (R192). -/
  | cls
  /-- `00EE`, `RET` (R173). -/
  | ret
  /-- `1NNN`, `JP NNN` (R170). -/
  | jp (nnn : BitVec 12)
  /-- `2NNN`, `CALL NNN` (R172). -/
  | call (nnn : BitVec 12)
  /-- `3XNN`, `SE Vx, NN` (R174). -/
  | seImm (x : BitVec 4) (nn : Byte)
  /-- `4XNN`, `SNE Vx, NN` (R175). -/
  | sneImm (x : BitVec 4) (nn : Byte)
  /-- `5XY0`, `SE Vx, Vy` (R176). -/
  | seReg (x y : BitVec 4)
  /-- `6XNN`, `LD Vx, NN` (R140). -/
  | ldImm (x : BitVec 4) (nn : Byte)
  /-- `7XNN`, `ADD Vx, NN` (R141). -/
  | addImm (x : BitVec 4) (nn : Byte)
  /-- `8XY0`, `LD Vx, Vy` (R142). -/
  | ldReg (x y : BitVec 4)
  /-- `8XY1`, `OR Vx, Vy` (R143). -/
  | orReg (x y : BitVec 4)
  /-- `8XY2`, `AND Vx, Vy` (R144). -/
  | andReg (x y : BitVec 4)
  /-- `8XY3`, `XOR Vx, Vy` (R145). -/
  | xorReg (x y : BitVec 4)
  /-- `8XY4`, `ADD Vx, Vy` (R146). -/
  | addReg (x y : BitVec 4)
  /-- `8XY5`, `SUB Vx, Vy` (R147). -/
  | sub (x y : BitVec 4)
  /-- `8XY6`, `SHR Vx`; the word carries a `Y` field that the operation does not use (R92, R148). -/
  | shr (x y : BitVec 4)
  /-- `8XY7`, `SUBN Vx, Vy` (R149). -/
  | subn (x y : BitVec 4)
  /-- `8XYE`, `SHL Vx`; the word carries a `Y` field that the operation does not use (R92, R150). -/
  | shl (x y : BitVec 4)
  /-- `9XY0`, `SNE Vx, Vy` (R177). -/
  | sneReg (x y : BitVec 4)
  /-- `ANNN`, `LD I, NNN` (R205). -/
  | ldI (nnn : BitVec 12)
  /-- `BNNN`, `JP V0, NNN` (R171). -/
  | jpV0 (nnn : BitVec 12)
  /-- `CXNN`, `RND Vx, NN` (R151). -/
  | rnd (x : BitVec 4) (nn : Byte)
  /-- `DXYN`, `DRW Vx, Vy, N` (R193). -/
  | drw (x y n : BitVec 4)
  /-- `EX9E`, `SKP Vx` (R200). -/
  | skp (x : BitVec 4)
  /-- `EXA1`, `SKNP Vx` (R201). -/
  | sknp (x : BitVec 4)
  /-- `FX07`, `LD Vx, DT` (R203). -/
  | ldVxDt (x : BitVec 4)
  /-- `FX0A`, `LD Vx, K` (R202). -/
  | ldVxK (x : BitVec 4)
  /-- `FX15`, `LD DT, Vx` (R204). -/
  | ldDtVx (x : BitVec 4)
  /-- `FX1E`, `ADD I, Vx` (R206). -/
  | addI (x : BitVec 4)
  /-- `FX29`, `LD F, Vx` (R207). -/
  | ldF (x : BitVec 4)
  /-- `FX33`, `LD B, Vx` (R208). -/
  | ldB (x : BitVec 4)
  /-- `FX55`, `LD [I], Vx` (R209). -/
  | storeRegs (x : BitVec 4)
  /-- `FX65`, `LD Vx, [I]` (R210). -/
  | loadRegs (x : BitVec 4)
  deriving DecidableEq, Repr

/-- What the decoder answers (R103): the instruction a word selects, or the word itself, rejected by name. -/
inductive Decoded where
  /-- The word selects one row of the opcode map. -/
  | instr (i : Instr)
  /-- The word selects no row: an unrecognised word (R97). -/
  | unknown (w : Word)
  deriving DecidableEq, Repr

end Sys2Proof
end

