-- ==== Sys2Proof/WellFormed.lean ====
section
/-!
DEFINITION. Well-formed instructions: every operand is a number that fits its field, 4 bits for a register number or
a row count, 8 for an immediate byte, 12 for an address (spec/30_encoding.md R91, R93 and R101: the numbers "must fit
12, 8 and 4 bits"). `Instr` holds its operands at those widths, so every instruction passes; the check is written over
the operands as plain numbers, where it can refuse. Beside it stands the assembler's canonical spelling (R101).
-/

namespace Sys2Proof

/-- The operands of an instruction as plain numbers, each with the width in bits of its field (R91, R92). -/
def Instr.operands : Instr → List (Nat × Nat)
  | .cls | .ret => []
  | .jp nnn | .call nnn | .ldI nnn | .jpV0 nnn => [(nnn.toNat, 12)]
  | .seImm x nn | .sneImm x nn | .ldImm x nn | .addImm x nn | .rnd x nn => [(x.toNat, 4), (nn.toNat, 8)]
  | .seReg x y | .sneReg x y | .ldReg x y | .orReg x y | .andReg x y | .xorReg x y | .addReg x y | .sub x y
  | .shr x y | .subn x y | .shl x y => [(x.toNat, 4), (y.toNat, 4)]
  | .drw x y n => [(x.toNat, 4), (y.toNat, 4), (n.toNat, 4)]
  | .skp x | .sknp x | .ldVxDt x | .ldVxK x | .ldDtVx x | .addI x | .ldF x | .ldB x | .storeRegs x
  | .loadRegs x => [(x.toNat, 4)]

/-- Every operand fits its field (R101). -/
def operandsFit (ops : List (Nat × Nat)) : Bool := ops.all fun o => decide (o.1 < 2 ^ o.2)

/-- A well-formed instruction: its operands fit their fields. -/
def Instr.wellFormed (i : Instr) : Bool := operandsFit i.operands

/-- The canonical spelling, the only one the assembler emits: `Y = 0` in `SHR Vx` and `SHL Vx` (R101). An
instruction that is not canonical executes like any other (R98). -/
def Instr.canonical : Instr → Bool
  | .shr _ y | .shl _ y => y == 0
  | _ => true

end Sys2Proof
end

