-- ==== Sys2Proof/Decode.lean ====
section
/-!
DEFINITION. The decoder, a total and pure function of the instruction word (spec/30_encoding.md R100, R103), the
encoder written from the same opcode map (R92, R96), and the map itself as rows of match and mask.
-/

namespace Sys2Proof

/-! ## Fields of the word (R91) -/

/-- `OP = W[15:12]`, the top nibble, which selects the family (R91). -/
def fieldOp (w : Word) : BitVec 4 := w.extractLsb' 12 4

/-- `X = W[11:8]` (R91). -/
def fieldX (w : Word) : BitVec 4 := w.extractLsb' 8 4

/-- `Y = W[7:4]` (R91). -/
def fieldY (w : Word) : BitVec 4 := w.extractLsb' 4 4

/-- `N = W[3:0]`, the low nibble (R91). -/
def fieldN (w : Word) : BitVec 4 := w.extractLsb' 0 4

/-- `NN = W[7:0]`, the low byte (R91). -/
def fieldNN (w : Word) : Byte := w.extractLsb' 0 8

/-- `NNN = W[11:0]` (R91). -/
def fieldNNN (w : Word) : BitVec 12 := w.extractLsb' 0 12

/-- The word the fetch forms from two bytes, big-endian: the byte at the lower address holds bits 15:8 (R64, R90). -/
def wordOfBytes (hi lo : Byte) : Word := hi ++ lo

/-! ## The decoder (R94, R95) -/

/-- Family 0: the low byte selects; bits 11:8 are not examined (R95). -/
def decodeFamily0 (w : Word) : Decoded :=
  match (fieldNN w).toNat with
  | 0xE0 => .instr .cls
  | 0xEE => .instr .ret
  | _ => .unknown w

/-- Family 8: the low nibble selects (R95). -/
def decodeFamily8 (w : Word) : Decoded :=
  match (fieldN w).toNat with
  | 0x0 => .instr (.ldReg (fieldX w) (fieldY w))
  | 0x1 => .instr (.orReg (fieldX w) (fieldY w))
  | 0x2 => .instr (.andReg (fieldX w) (fieldY w))
  | 0x3 => .instr (.xorReg (fieldX w) (fieldY w))
  | 0x4 => .instr (.addReg (fieldX w) (fieldY w))
  | 0x5 => .instr (.sub (fieldX w) (fieldY w))
  | 0x6 => .instr (.shr (fieldX w) (fieldY w))
  | 0x7 => .instr (.subn (fieldX w) (fieldY w))
  | 0xE => .instr (.shl (fieldX w) (fieldY w))
  | _ => .unknown w

/-- Family E: the low byte selects (R95). -/
def decodeFamilyE (w : Word) : Decoded :=
  match (fieldNN w).toNat with
  | 0x9E => .instr (.skp (fieldX w))
  | 0xA1 => .instr (.sknp (fieldX w))
  | _ => .unknown w

/-- Family F: the low byte selects; `FX18` has no row (R95, R99). -/
def decodeFamilyF (w : Word) : Decoded :=
  match (fieldNN w).toNat with
  | 0x07 => .instr (.ldVxDt (fieldX w))
  | 0x0A => .instr (.ldVxK (fieldX w))
  | 0x15 => .instr (.ldDtVx (fieldX w))
  | 0x1E => .instr (.addI (fieldX w))
  | 0x29 => .instr (.ldF (fieldX w))
  | 0x33 => .instr (.ldB (fieldX w))
  | 0x55 => .instr (.storeRegs (fieldX w))
  | 0x65 => .instr (.loadRegs (fieldX w))
  | _ => .unknown w

/-- The decoder: the first level dispatches on `OP` alone (R94), families 0, 8, E and F on a sub-code (R95).
Families 5 and 9 do not examine the low nibble. -/
def decode (w : Word) : Decoded :=
  match (fieldOp w).toNat with
  | 0x0 => decodeFamily0 w
  | 0x1 => .instr (.jp (fieldNNN w))
  | 0x2 => .instr (.call (fieldNNN w))
  | 0x3 => .instr (.seImm (fieldX w) (fieldNN w))
  | 0x4 => .instr (.sneImm (fieldX w) (fieldNN w))
  | 0x5 => .instr (.seReg (fieldX w) (fieldY w))
  | 0x6 => .instr (.ldImm (fieldX w) (fieldNN w))
  | 0x7 => .instr (.addImm (fieldX w) (fieldNN w))
  | 0x8 => decodeFamily8 w
  | 0x9 => .instr (.sneReg (fieldX w) (fieldY w))
  | 0xA => .instr (.ldI (fieldNNN w))
  | 0xB => .instr (.jpV0 (fieldNNN w))
  | 0xC => .instr (.rnd (fieldX w) (fieldNN w))
  | 0xD => .instr (.drw (fieldX w) (fieldY w) (fieldN w))
  | 0xE => decodeFamilyE w
  | _ => decodeFamilyF w

/-- The decoder on an instruction's two bytes as they lie in memory, the lower address first (R90). -/
def decodeBytes (hi lo : Byte) : Decoded := decode (wordOfBytes hi lo)

/-- What the decoder reads from an opcode-table word of `nbits` bits `w`: its high byte is stored first (R90), and
the bits from `nbits` up are 0. -/
def decodeTableWord (nbits w : Nat) : Option Instr :=
  let word := BitVec.ofNat 16 (w % 2 ^ nbits)
  match decodeBytes (word.extractLsb' 8 8) (word.extractLsb' 0 8) with
  | .instr i => some i
  | .unknown _ => none

/-! ## The encoder (R92, R96) -/

/-- Format `A`: `oooonnnnnnnnnnnn` (R92). -/
def encodeA (op : BitVec 4) (nnn : BitVec 12) : Word := op ++ nnn

/-- Format `XI`, and format `XS` with the sub-code as the low byte: `ooooxxxxkkkkkkkk` (R92). -/
def encodeXI (op x : BitVec 4) (nn : Byte) : Word := op ++ x ++ nn

/-- Formats `XY`, `XYS` and `XYN`: `ooooxxxxyyyyssss` (R92). -/
def encodeXYN (op x y n : BitVec 4) : Word := op ++ x ++ y ++ n

/-- The word of an instruction, ignored bits zero (R92, R96, R101). -/
def encode : Instr → Word
  | .cls => 0x00E0
  | .ret => 0x00EE
  | .jp nnn => encodeA 0x1 nnn
  | .call nnn => encodeA 0x2 nnn
  | .seImm x nn => encodeXI 0x3 x nn
  | .sneImm x nn => encodeXI 0x4 x nn
  | .seReg x y => encodeXYN 0x5 x y 0x0
  | .ldImm x nn => encodeXI 0x6 x nn
  | .addImm x nn => encodeXI 0x7 x nn
  | .ldReg x y => encodeXYN 0x8 x y 0x0
  | .orReg x y => encodeXYN 0x8 x y 0x1
  | .andReg x y => encodeXYN 0x8 x y 0x2
  | .xorReg x y => encodeXYN 0x8 x y 0x3
  | .addReg x y => encodeXYN 0x8 x y 0x4
  | .sub x y => encodeXYN 0x8 x y 0x5
  | .shr x y => encodeXYN 0x8 x y 0x6
  | .subn x y => encodeXYN 0x8 x y 0x7
  | .shl x y => encodeXYN 0x8 x y 0xE
  | .sneReg x y => encodeXYN 0x9 x y 0x0
  | .ldI nnn => encodeA 0xA nnn
  | .jpV0 nnn => encodeA 0xB nnn
  | .rnd x nn => encodeXI 0xC x nn
  | .drw x y n => encodeXYN 0xD x y n
  | .skp x => encodeXI 0xE x 0x9E
  | .sknp x => encodeXI 0xE x 0xA1
  | .ldVxDt x => encodeXI 0xF x 0x07
  | .ldVxK x => encodeXI 0xF x 0x0A
  | .ldDtVx x => encodeXI 0xF x 0x15
  | .addI x => encodeXI 0xF x 0x1E
  | .ldF x => encodeXI 0xF x 0x29
  | .ldB x => encodeXI 0xF x 0x33
  | .storeRegs x => encodeXI 0xF x 0x55
  | .loadRegs x => encodeXI 0xF x 0x65

/-! ## The opcode map as match and mask (R96) -/

/-- The row of an instruction: its `match` and its `mask` (R96). -/
def opRow : Instr → Word × Word
  | .cls => (0x00E0, 0xF0FF)
  | .ret => (0x00EE, 0xF0FF)
  | .jp _ => (0x1000, 0xF000)
  | .call _ => (0x2000, 0xF000)
  | .seImm _ _ => (0x3000, 0xF000)
  | .sneImm _ _ => (0x4000, 0xF000)
  | .seReg _ _ => (0x5000, 0xF000)
  | .ldImm _ _ => (0x6000, 0xF000)
  | .addImm _ _ => (0x7000, 0xF000)
  | .ldReg _ _ => (0x8000, 0xF00F)
  | .orReg _ _ => (0x8001, 0xF00F)
  | .andReg _ _ => (0x8002, 0xF00F)
  | .xorReg _ _ => (0x8003, 0xF00F)
  | .addReg _ _ => (0x8004, 0xF00F)
  | .sub _ _ => (0x8005, 0xF00F)
  | .shr _ _ => (0x8006, 0xF00F)
  | .subn _ _ => (0x8007, 0xF00F)
  | .shl _ _ => (0x800E, 0xF00F)
  | .sneReg _ _ => (0x9000, 0xF000)
  | .ldI _ => (0xA000, 0xF000)
  | .jpV0 _ => (0xB000, 0xF000)
  | .rnd _ _ => (0xC000, 0xF000)
  | .drw _ _ _ => (0xD000, 0xF000)
  | .skp _ => (0xE09E, 0xF0FF)
  | .sknp _ => (0xE0A1, 0xF0FF)
  | .ldVxDt _ => (0xF007, 0xF0FF)
  | .ldVxK _ => (0xF00A, 0xF0FF)
  | .ldDtVx _ => (0xF015, 0xF0FF)
  | .addI _ => (0xF01E, 0xF0FF)
  | .ldF _ => (0xF029, 0xF0FF)
  | .ldB _ => (0xF033, 0xF0FF)
  | .storeRegs _ => (0xF055, 0xF0FF)
  | .loadRegs _ => (0xF065, 0xF0FF)

/-- The rows of families 0 to 7 (R96, rows 1 to 9), match and mask. -/
def opcodeRowsLow : List (Word × Word) :=
  [(0x00E0, 0xF0FF), (0x00EE, 0xF0FF), (0x1000, 0xF000), (0x2000, 0xF000), (0x3000, 0xF000), (0x4000, 0xF000),
   (0x5000, 0xF000), (0x6000, 0xF000), (0x7000, 0xF000)]

/-- The rows of family 8 (R96, rows 10 to 18), match and mask. -/
def opcodeRows8 : List (Word × Word) :=
  [(0x8000, 0xF00F), (0x8001, 0xF00F), (0x8002, 0xF00F), (0x8003, 0xF00F), (0x8004, 0xF00F), (0x8005, 0xF00F),
   (0x8006, 0xF00F), (0x8007, 0xF00F), (0x800E, 0xF00F)]

/-- The rows of families 9 to F (R96, rows 19 to 33), match and mask. -/
def opcodeRowsHigh : List (Word × Word) :=
  [(0x9000, 0xF000), (0xA000, 0xF000), (0xB000, 0xF000), (0xC000, 0xF000), (0xD000, 0xF000), (0xE09E, 0xF0FF),
   (0xE0A1, 0xF0FF), (0xF007, 0xF0FF), (0xF00A, 0xF0FF), (0xF015, 0xF0FF), (0xF01E, 0xF0FF), (0xF029, 0xF0FF),
   (0xF033, 0xF0FF), (0xF055, 0xF0FF), (0xF065, 0xF0FF)]

/-- The opcode map: the 33 rows of R96 in the table's order. -/
def opcodeRows : List (Word × Word) := opcodeRowsLow ++ opcodeRows8 ++ opcodeRowsHigh

/-- A word selects a row exactly when `(W and mask) = match` (R96). -/
def selects (w : Word) (row : Word × Word) : Prop := w &&& row.2 = row.1

end Sys2Proof
end

