-- ==== Sys2Proof/Config.lean ====
section
/-!
DEFINITION. What is fixed for the machine and what the spec leaves free: the implementation parameters of
spec/00_scope.md R5 that the model reads, the font of spec/20_memory.md R62, and the random byte of
spec/50_host_interface.md R238, which is a free value.
-/

namespace Sys2Proof

/-- `MEM_SIZE`: bytes of memory, addresses 0 to 4095 (R5, R60). -/
def Config.memSize : Nat := 4096

/-- `PROGRAM_BASE`: where a program is loaded, and the reset value of `pc` (R5, R37, R233). -/
def Config.programBase : Nat := 512

/-- The longest image `load` accepts: `4096 - 512` bytes (R61, R233). -/
def Config.maxProgram : Nat := 3584

/-- `STACK_DEPTH`: slots of the call stack, and the value of `SP` when it is full (R5, R28). -/
def Config.stackDepth : Nat := 16

/-- `FB_W`: columns of the framebuffer, the stride of its linear order (R5, R190). -/
def Config.fbWidth : Nat := 64

/-- `FB_CELLS`: cells of the framebuffer, the modulus of the sprite wrap (R5, R193). -/
def Config.fbCells : Nat := 2048

/-- Glyphs "0" to "3" (R62, addresses 0 to 19). -/
def Config.font0 : List Byte :=
  [0xF0, 0x90, 0x90, 0x90, 0xF0] ++ [0x20, 0x60, 0x20, 0x20, 0x70] ++
  [0xF0, 0x10, 0xF0, 0x80, 0xF0] ++ [0xF0, 0x10, 0xF0, 0x10, 0xF0]

/-- Glyphs "4" to "7" (R62, addresses 20 to 39). -/
def Config.font4 : List Byte :=
  [0x90, 0x90, 0xF0, 0x10, 0x10] ++ [0xF0, 0x80, 0xF0, 0x10, 0xF0] ++
  [0xF0, 0x80, 0xF0, 0x90, 0xF0] ++ [0xF0, 0x10, 0x20, 0x40, 0x40]

/-- Glyphs "8" to "B" (R62, addresses 40 to 59). -/
def Config.font8 : List Byte :=
  [0xF0, 0x90, 0xF0, 0x90, 0xF0] ++ [0xF0, 0x90, 0xF0, 0x10, 0xF0] ++
  [0xF0, 0x90, 0xF0, 0x90, 0x90] ++ [0xE0, 0x90, 0xE0, 0x90, 0xE0]

/-- Glyphs "C" to "F" (R62, addresses 60 to 79). -/
def Config.fontC : List Byte :=
  [0xF0, 0x80, 0x80, 0x80, 0xF0] ++ [0xE0, 0x90, 0x90, 0x90, 0xE0] ++
  [0xF0, 0x80, 0xF0, 0x80, 0xF0] ++ [0xF0, 0x80, 0xF0, 0x80, 0x80]

/-- `FONT`, the 80 bytes of the built-in font, glyph `d` at `5·d` (R62; the spec took the byte values from general
knowledge, D28 and G4: assumption 3). -/
def Config.font : List Byte := Config.font0 ++ Config.font4 ++ Config.font8 ++ Config.fontC

/-- `rnd`: the random byte that the environment supplies (R238), a FREE VALUE under no law. The `k`-th byte drawn in
a run is `Config.rnd k`; the constant has no body, so a claim about it holds whatever bytes the environment supplies
(assumption 2). -/
opaque Config.rnd : Nat → Byte

end Sys2Proof
end

