-- ==== Sys2Proof/Machine/State.lean ====
section
/-!
DEFINITION. The state of the core: the ten elements of spec/10_state.md R20, one field each, and one field of the
model's own, the position in the free random input. Beside it the condition records of spec/60_exceptions.md R250,
the reasons a step can stop, and the state after reset (R37, R290).
-/

namespace Sys2Proof.Machine

/-- Memory as data: the bytes that differ from what an unlisted address reads as (`Memory.unlisted`), with strictly
rising addresses (R29, R60). -/
abbrev Memory := List Host.Cell

/-- The framebuffer as its 32 rows of 64 cells: bit `x` of row `y` is the cell `FB[x + 64·y]` (R30, R190). -/
abbrev Framebuffer := Vector (BitVec 64) 32

/-- The state of the core (R20). There is no mode, status word, interrupt state, fault latch, cycle counter or sound
timer to hold (R34, R35, R36). -/
structure State where
  /-- The general registers `V[0]` to `V[15]`; `V[15]` is the flag register `VF` (R21, R22). -/
  v : Vector Byte 16
  /-- The index register `I`, 16 bits (R24). -/
  i : Word
  /-- The program counter: between cycles, the address of the next instruction (R25). -/
  pc : Word
  /-- The call stack `STACK[0]` to `STACK[15]`, a separate store (R27). -/
  stack : Vector Word 16
  /-- The stack pointer `SP`, 0 to 16: the number of occupied slots (R28). -/
  sp : Fin 17
  /-- Memory, addresses 0 to 4095 (R29). -/
  mem : Memory
  /-- The framebuffer, 2048 one-bit cells (R30). -/
  fb : Framebuffer
  /-- The redraw flag `REDRAW` (R31). -/
  redraw : Bool
  /-- The keypad: bit `k` is `KEY[k]`, written by the host alone (R32, R242). -/
  key : BitVec 16
  /-- The delay timer `DT` (R33). -/
  dt : Byte
  /-- THE MODEL'S OWN, not the spec's: how many random bytes have been drawn; the next is `Config.rnd draws`
  (R238; assumption 2). -/
  draws : Nat
  deriving DecidableEq, Repr

/-- The core right after reset, before a program is loaded (R37, R290): everything zero, `pc` at 512, and memory
with nothing listed, so that it reads as the font and then zeros. -/
def State.reset : State where
  v := Vector.replicate 16 0
  i := 0
  pc := 512
  stack := Vector.replicate 16 0
  sp := 0
  mem := []
  fb := Vector.replicate 32 0
  redraw := false
  key := 0
  dt := 0
  draws := 0

/-- What a reported cycle records beside its code (R250): the `pc` of the cycle, the instruction word fetched (0 when
the condition arose before the fetch) and the condition-specific value. -/
structure Report where
  /-- `at_pc`, the `pc` at the start of the cycle. -/
  atPc : Word
  /-- `word`, the instruction word of the cycle. -/
  word : Word
  /-- `aux`, as R250's table gives it for the condition. -/
  aux : Word
  deriving DecidableEq, Repr

/-- Why a step stops: the six cycle conditions (R250). The cycle writes nothing, drives the record and holds until
reset (R251); a model maps it to a fault, as spec/93_implementation_defined.md U2 says, so each is SAFE: the model
goes no further where the core makes no progress either (assumption 1). -/
inductive Fault where
  /-- Code 1, `UNKNOWN_INSTRUCTION`, raised by the decoder on a word of no row (R252). Safe. -/
  | unknownInstruction (r : Report)
  /-- Code 2, `STACK_OVERFLOW`, raised by `2NNN` when `SP = 16` (R253). Safe. -/
  | stackOverflow (r : Report)
  /-- Code 3, `STACK_UNDERFLOW`, raised by `00EE` when `SP = 0` (R254). Safe. -/
  | stackUnderflow (r : Report)
  /-- Code 4, `MEM_RANGE`, raised by `DXYN`, `FX33`, `FX55` and `FX65` when they would touch an address above 4095
  (R255). Safe. -/
  | memRange (r : Report)
  /-- Code 5, `FETCH_RANGE`, raised before the fetch when `pc > 4094` (R256). Safe. -/
  | fetchRange (r : Report)
  /-- Code 6, `KEY_RANGE`, raised by `EX9E` and `EXA1` when `V[X] > 15` (R257). Safe. -/
  | keyRange (r : Report)
  deriving DecidableEq, Repr

/-- Why an instruction has no meaning in the model. Nothing in this model raises it: every row of the opcode table
has its meaning. -/
inductive Refusal where
  /-- Raised by an arm of `exec` for an instruction without a meaning, by name. Safe. No arm raises it. -/
  | notModelled (mnemonic : String)
  deriving DecidableEq, Repr

/-- The diagnostic record of a reported cycle, with `valid = 1` (R239): its 3-bit code and its fields. A completed
cycle drives no record. -/
structure Diag where
  /-- `code`, the condition code of R250. -/
  code : BitVec 3
  /-- `at_pc`, `word` and `aux`. -/
  report : Report
  deriving DecidableEq, Repr

end Sys2Proof.Machine
end

