-- ==== Sys2Proof/Machine/Flags.lean ====
section
/-!
DEFINITION. The flag computations (spec/10_state.md R23): the value each flag-writing instruction leaves in `VF`,
a function of operands sampled before any write (spec/40_fetch_dispatch.md R125). A flag is 0 or 1 (R22).
-/

namespace Sys2Proof.Machine

/-- A flag as the byte written to `VF`: 1 or 0 (R22). -/
def flagByte (b : Bool) : Byte := if b then 1 else 0

/-- The flag of OR, AND and XOR: always 0 (R143, R144, R145). -/
def flagCleared : Byte := 0

/-- The carry of `8XY4`: 1 if the unbounded sum exceeds 255 (R146). -/
def flagCarry (x0 y0 : Byte) : Byte := flagByte (decide (x0.toNat + y0.toNat > 255))

/-- The not-borrow of a subtraction: 1 if minuend ≥ subtrahend, unsigned, equality included (R147, R149). -/
def flagNotBorrow (minuend subtrahend : Byte) : Byte := flagByte (decide (minuend.toNat ≥ subtrahend.toNat))

/-- The bit `8XY6` shifts out: bit 0 (R148). -/
def flagShiftedRight (x0 : Byte) : Byte := flagByte (x0.getLsbD 0)

/-- The bit `8XYE` shifts out: bit 7 (R150). -/
def flagShiftedLeft (x0 : Byte) : Byte := flagByte (x0.getLsbD 7)

/-- The overflow flag of `FX1E`: 1 if the unbounded sum exceeds 4095 (R206). -/
def flagIndexOverflow (i0 : Word) (x0 : Byte) : Byte := flagByte (decide (i0.toNat + x0.toNat > 4095))

end Sys2Proof.Machine
end

