-- ==== Sys2Proof/Machine/Ops.lean ====
section
/-!
DEFINITION. The named operations over memory, registers, the stack and the framebuffer, the report of a condition
(the only form an exception takes on this core, spec/60_exceptions.md R251, R260), the fetch and the timer tick.
-/

namespace Sys2Proof.Machine

/-! ## Memory (R63) -/

/-- What an address that memory does not list reads as: the reset contents, the font at 0 to 79 and 0 elsewhere
(R37, R61, R62). -/
def Memory.unlisted (a : Nat) : Byte := Config.font.getD a 0

/-- `MemRead(a, 1)`: the byte at an address (R63). -/
def Memory.read (m : Memory) (a : Nat) : Byte :=
  match m with
  | [] => Memory.unlisted a
  | (b, v) :: rest => if b = a then v else Memory.read rest a

/-- Take an address out of the list. -/
def Memory.eraseCell (m : Memory) (a : Nat) : Memory := m.filter fun c => c.1 ≠ a

/-- Put a cell in front of the first cell with a higher address. -/
def Memory.insertCell (m : Memory) (a : Nat) (v : Byte) : Memory :=
  match m with
  | [] => [(a, v)]
  | (b, w) :: rest => if a < b then (a, v) :: (b, w) :: rest else (b, w) :: Memory.insertCell rest a v

/-- `MemWrite(a, 1, v)`: the byte at one address changes and no other (R63). A value equal to what the address reads
as unlisted leaves it unlisted, so that equal memories are equal data. -/
def Memory.write (m : Memory) (a : Nat) (v : Byte) : Memory :=
  if v = Memory.unlisted a then m.eraseCell a else (m.eraseCell a).insertCell a v

/-- The bytes at `a`, `a + 1`, .. `a + n - 1`, in ascending order (R66). -/
def Memory.readBytes (m : Memory) (a n : Nat) : List Byte := (List.range n).map fun j => m.read (a + j)

/-- Single-byte stores at ascending addresses from `a`, the first byte first (R64, R66). -/
def Memory.writeBytes (m : Memory) (a : Nat) : List Byte → Memory
  | [] => m
  | b :: bs => Memory.writeBytes (m.write a b) (a + 1) bs

/-- Store an instruction word as the fetch reads it: its high byte at the lower address (R64, R90). -/
def Memory.placeWord (m : Memory) (a : Nat) (w : Word) : Memory :=
  m.writeBytes a [w.extractLsb' 8 8, w.extractLsb' 0 8]

/-- The addresses of the listed cells rise strictly. -/
def Memory.rising : Memory → Bool
  | [] => true
  | c :: rest => rest.all (fun d => c.1 < d.1) && Memory.rising rest

/-- The canonical form of memory: strictly rising addresses, all below 4096, and no entry equal to what an unlisted
address reads as. -/
def Memory.wf (m : Memory) : Bool :=
  m.rising && m.all fun c => decide (c.1 < Config.memSize) && decide (c.2 ≠ Memory.unlisted c.1)

/-! ## Registers (R21, R22) -/

/-- The value of a general register. Every register is ordinary; none is hard-wired (R21). -/
def State.getV (s : State) (x : BitVec 4) : Byte := s.v[x.toNat]'x.isLt

/-- Write a general register. -/
def State.setV (s : State) (x : BitVec 4) (b : Byte) : State := { s with v := s.v.set x.toNat b x.isLt }

/-- Write the flag register `VF`, which is `V[15]` (R22). -/
def State.setFlag (s : State) (b : Byte) : State := s.setV 15#4 b

/-! ## Program counter (R25, R26) -/

/-- `pc <- trunc_16(pc + 2)`, the advance past one instruction (R26 (g)). -/
def State.advance (s : State) : State := { s with pc := s.pc + 2 }

/-- A skip: `pc + 4` when the condition holds and `pc + 2` when it does not (R26 (e)). -/
def State.skipIf (s : State) (c : Bool) : State := { s with pc := if c then s.pc + 4 else s.pc + 2 }

/-! ## Call stack (R27, R28) -/

/-- Push the address of the instruction being executed on a stack that is not full: `STACK[SP] <- pc`,
`SP <- SP + 1` (R172). -/
def State.push (s : State) (h : s.sp.val < 16) : State :=
  { s with stack := s.stack.set s.sp.val s.pc h, sp := ⟨s.sp.val + 1, by omega⟩ }

/-- The address on top of a stack that is not empty, `STACK[SP - 1]` (R173). -/
def State.top (s : State) (h : 0 < s.sp.val) : Word := s.stack[s.sp.val - 1]'(by omega)

/-- `SP <- SP - 1`; the slot keeps its value (R173). -/
def State.pop (s : State) : State := { s with sp := ⟨s.sp.val - 1, by omega⟩ }

/-! ## Framebuffer (R30, R190) -/

/-- The cell `FB[c]`: column `c mod 64` of row `c div 64` (R190). There is no cell at 2048 or above. -/
def fbCell (fb : Framebuffer) (c : Nat) : Bool :=
  if h : c / Config.fbWidth < 32 then fb[c / Config.fbWidth].getLsbD (c % Config.fbWidth) else false

/-- `FB[c] <- FB[c] xor 1`, and no other cell (R193). -/
def fbToggle (fb : Framebuffer) (c : Nat) : Framebuffer :=
  if h : c / Config.fbWidth < 32 then
    fb.set (c / Config.fbWidth) (fb[c / Config.fbWidth] ^^^ BitVec.twoPow 64 (c % Config.fbWidth))
  else fb

/-- All 2048 cells 0 (R192). -/
def fbClear : Framebuffer := Vector.replicate 32 0

/-! ## Fetch (R70, R121) -/

/-- `W = 256·MEM[pc] + MEM[pc + 1]`, big-endian (R64, R121). -/
def State.fetchWord (s : State) : Word := wordOfBytes (s.mem.read s.pc.toNat) (s.mem.read (s.pc.toNat + 1))

/-! ## Reported conditions (R250, R251) -/

/-- `report <CONDITION>(pc, W, aux)` from a handler; `raise` names the condition. The cycle ends with nothing written, and
the record carries its `pc`, the word fetched from it and the condition's value (R8, R251, R260; assumption 5). Nothing
returns from a report: the state is what it was, so a further cycle reports again, until reset (R251, R261). -/
def report (raise : Report → Fault) (aux : Word) (s : State) : Host.Outcome State Fault Refusal :=
  .fault (raise ⟨s.pc, s.fetchWord, aux⟩)

/-- The condition code of a fault (R250). -/
def Fault.code : Fault → BitVec 3
  | .unknownInstruction _ => 1
  | .stackOverflow _ => 2
  | .stackUnderflow _ => 3
  | .memRange _ => 4
  | .fetchRange _ => 5
  | .keyRange _ => 6

/-- What a fault recorded. -/
def Fault.report : Fault → Report
  | .unknownInstruction r | .stackOverflow r | .stackUnderflow r | .memRange r | .fetchRange r | .keyRange r => r

/-- The diagnostic record a fault drives (R239, R250). -/
def Fault.diag (f : Fault) : Diag := ⟨f.code, f.report⟩

/-! ## The cycle around a handler (R120) -/

/-- Steps 1 to 3 of the cycle (R120): the range check, the fetch and the decode, which read the state and change
nothing. -/
def State.fetch (s : State) : Except Fault Instr :=
  if s.pc.toNat > 4094 then .error (.fetchRange ⟨s.pc, 0, 0⟩)
  else
    match decode s.fetchWord with
    | .instr i => .ok i
    | .unknown w => .error (.unknownInstruction ⟨s.pc, w, 0⟩)

/-- Step 5, the timer tick: `if DT > 0 then DT <- DT - 1` (R127). -/
def State.tick (s : State) : State := { s with dt := if s.dt.toNat > 0 then s.dt - 1 else s.dt }

/-- The end of a cycle: a completed handler is followed by the tick, a reported condition by nothing (R120, R127,
R128). -/
def completeCycle : Host.Outcome State Fault Refusal → Host.Outcome State Fault Refusal
  | .next s => .next s.tick
  | .fault f => .fault f
  | .refused r => .refused r

end Sys2Proof.Machine
end

