-- ==== Sys2Proof/Machine/Operands.lean ====
section
/-!
DEFINITION. The operand forms (spec/30_encoding.md R93, spec/44_keypad_timer_memory.md R211): zero-extended
immediates, the one data addressing mode (`EA = i0 + j`, checked before the first access), the key index and the
register range of `FX55` and `FX65`.
-/

namespace Sys2Proof.Machine

/-- A 12-bit absolute address as a word, zero-extended (R93). -/
def addressOperand (nnn : BitVec 12) : Word := nnn.setWidth 16

/-- The effective address of the `j`-th byte of a data access, formed without wrap or mask (R211). -/
def effectiveAddress (i0 : Word) (j : Nat) : Nat := i0.toNat + j

/-- The range check of a data access of `len` bytes at `I`: it fails when a byte is touched and the highest address
is above 4095 (R69). -/
def pastMemory (i0 : Word) (len : Nat) : Bool := decide (len ≥ 1 ∧ effectiveAddress i0 len - 1 > 4095)

/-- A handler that touches `len` bytes at `I`: `MEM_RANGE` with the value of `I` before anything is written, or the
handler's next state (R69, R255). -/
def accessing (len : Nat) (s next : State) : Host.Outcome State Fault Refusal :=
  if pastMemory s.i len then report .memRange s.i s else .next next

/-- The key index that `EX9E` and `EXA1` take from a register value: a value above 15 names no key (R200). -/
def keyIndex (x0 : Byte) : Option (BitVec 4) := if x0.toNat > 15 then none else some (x0.setWidth 4)

/-- `KEY[k]` (R32). -/
def State.keyHeld (s : State) (k : BitVec 4) : Bool := s.key.getLsbD k.toNat

/-- The keypad scan of `FX0A`: ascending over all 16 keys, keeping the last held index it meets (R202). -/
def State.lastHeldKey (s : State) : Option Nat :=
  (List.range 16).foldl (fun last k => if s.key.getLsbD k then some k else last) none

/-- The values of `V[0]` to `V[X]`, the registers `FX55` stores (R209). -/
def State.regsUpTo (s : State) (x : BitVec 4) : List Byte := s.v.toList.take (x.toNat + 1)

/-- The register file after `FX65` loads `V[0]` to `V[X]` from `MEM[i0]` up (R210). -/
def State.regsLoaded (s : State) (x : BitVec 4) : Vector Byte 16 :=
  Vector.ofFn fun j => if j.val ≤ x.toNat then s.mem.read (effectiveAddress s.i j.val) else s.v[j.val]

/-- The hundreds, tens and ones digits of a byte, in the order `FX33` stores them (R208). -/
def decimalDigits (x0 : Byte) : List Byte :=
  [BitVec.ofNat 8 (x0.toNat / 100), BitVec.ofNat 8 (x0.toNat / 10 % 10), BitVec.ofNat 8 (x0.toNat % 10)]

end Sys2Proof.Machine
end

