-- ==== Sys2Proof/Machine/Alu.lean ====
section
/-!
DEFINITION. The register and ALU family (spec/41_register_alu.md R140 to R151). Every handler samples its operands
from the state at the start of the cycle, writes `V[X]`, then `VF`, then `pc` (spec/40_fetch_dispatch.md R125, R126),
and reports nothing.
-/

namespace Sys2Proof.Machine

/-- A handler that writes `V[X]` and no flag, then advances (R126). -/
def writeReg (x : BitVec 4) (result : Byte) (s : State) : Host.Outcome State Fault Refusal :=
  .next (s.setV x result).advance

/-- A handler that writes `V[X]`, then the flag, which remains when `X = 15`, then advances (R126). -/
def writeRegFlag (x : BitVec 4) (result flag : Byte) (s : State) : Host.Outcome State Fault Refusal :=
  .next ((s.setV x result).setFlag flag).advance

/-- `6XNN`, `LD Vx, NN` (R140). -/
def execLdImm (x : BitVec 4) (nn : Byte) (s : State) : Host.Outcome State Fault Refusal :=
  writeReg x nn s

/-- `7XNN`, `ADD Vx, NN`: wraps, no flag (R141). -/
def execAddImm (x : BitVec 4) (nn : Byte) (s : State) : Host.Outcome State Fault Refusal :=
  writeReg x (s.getV x + nn) s

/-- `8XY0`, `LD Vx, Vy` (R142). -/
def execLdReg (x y : BitVec 4) (s : State) : Host.Outcome State Fault Refusal :=
  writeReg x (s.getV y) s

/-- `8XY1`, `OR Vx, Vy`: clears the flag (R143). -/
def execOrReg (x y : BitVec 4) (s : State) : Host.Outcome State Fault Refusal :=
  writeRegFlag x (s.getV x ||| s.getV y) flagCleared s

/-- `8XY2`, `AND Vx, Vy`: clears the flag (R144). -/
def execAndReg (x y : BitVec 4) (s : State) : Host.Outcome State Fault Refusal :=
  writeRegFlag x (s.getV x &&& s.getV y) flagCleared s

/-- `8XY3`, `XOR Vx, Vy`: clears the flag (R145). -/
def execXorReg (x y : BitVec 4) (s : State) : Host.Outcome State Fault Refusal :=
  writeRegFlag x (s.getV x ^^^ s.getV y) flagCleared s

/-- `8XY4`, `ADD Vx, Vy`: the flag is the carry (R146). -/
def execAddReg (x y : BitVec 4) (s : State) : Host.Outcome State Fault Refusal :=
  writeRegFlag x (s.getV x + s.getV y) (flagCarry (s.getV x) (s.getV y)) s

/-- `8XY5`, `SUB Vx, Vy`: `V[X] - V[Y]`, the flag is not-borrow (R147). -/
def execSub (x y : BitVec 4) (s : State) : Host.Outcome State Fault Refusal :=
  writeRegFlag x (s.getV x - s.getV y) (flagNotBorrow (s.getV x) (s.getV y)) s

/-- `8XY6`, `SHR Vx`: `V[X]` is shifted in place and `Y` is not used (R148, D16). -/
def execShr (x _y : BitVec 4) (s : State) : Host.Outcome State Fault Refusal :=
  writeRegFlag x (s.getV x >>> 1) (flagShiftedRight (s.getV x)) s

/-- `8XY7`, `SUBN Vx, Vy`: `V[Y] - V[X]`, the flag is not-borrow (R149). -/
def execSubn (x y : BitVec 4) (s : State) : Host.Outcome State Fault Refusal :=
  writeRegFlag x (s.getV y - s.getV x) (flagNotBorrow (s.getV y) (s.getV x)) s

/-- `8XYE`, `SHL Vx`: `V[X]` is shifted in place and `Y` is not used (R150, D16). -/
def execShl (x _y : BitVec 4) (s : State) : Host.Outcome State Fault Refusal :=
  writeRegFlag x (s.getV x <<< 1) (flagShiftedLeft (s.getV x)) s

/-- `CXNN`, `RND Vx, NN`: the next free byte under the mask (R151, R238). -/
def execRnd (x : BitVec 4) (nn : Byte) (s : State) : Host.Outcome State Fault Refusal :=
  writeReg x (Config.rnd s.draws &&& nn) { s with draws := s.draws + 1 }

end Sys2Proof.Machine
end

