-- ==== Sys2Proof/Machine/Control.lean ====
section
/-!
DEFINITION. The control-flow family (spec/42_control_flow.md R170 to R177). Nothing is checked when `pc` is written;
the range check stands at the start of the next cycle (R178).
-/

namespace Sys2Proof.Machine

/-- `00EE`, `RET`: `STACK_UNDERFLOW` on an empty stack; else the popped address plus 2 (R173, R254). -/
def execRet (s : State) : Host.Outcome State Fault Refusal :=
  if h : 0 < s.sp.val then .next { s.pop with pc := s.top h + 2 }
  else report .stackUnderflow 0 s

/-- `1NNN`, `JP NNN` (R170). -/
def execJp (nnn : BitVec 12) (s : State) : Host.Outcome State Fault Refusal :=
  .next { s with pc := addressOperand nnn }

/-- `2NNN`, `CALL NNN`: `STACK_OVERFLOW` on a full stack, else push the address of this instruction and jump (R172,
R253). -/
def execCall (nnn : BitVec 12) (s : State) : Host.Outcome State Fault Refusal :=
  if h : s.sp.val < 16 then .next { s.push h with pc := addressOperand nnn }
  else report .stackOverflow 16 s

/-- `3XNN`, `SE Vx, NN` (R174). -/
def execSeImm (x : BitVec 4) (nn : Byte) (s : State) : Host.Outcome State Fault Refusal :=
  .next (s.skipIf (s.getV x == nn))

/-- `4XNN`, `SNE Vx, NN` (R175). -/
def execSneImm (x : BitVec 4) (nn : Byte) (s : State) : Host.Outcome State Fault Refusal :=
  .next (s.skipIf (s.getV x != nn))

/-- `5XY0`, `SE Vx, Vy` (R176). -/
def execSeReg (x y : BitVec 4) (s : State) : Host.Outcome State Fault Refusal :=
  .next (s.skipIf (s.getV x == s.getV y))

/-- `9XY0`, `SNE Vx, Vy` (R177). -/
def execSneReg (x y : BitVec 4) (s : State) : Host.Outcome State Fault Refusal :=
  .next (s.skipIf (s.getV x != s.getV y))

/-- `BNNN`, `JP V0, NNN`: always register 0, and the sum is not masked (R171). -/
def execJpV0 (nnn : BitVec 12) (s : State) : Host.Outcome State Fault Refusal :=
  .next { s with pc := addressOperand nnn + (s.getV 0#4).setWidth 16 }

end Sys2Proof.Machine
end

