-- ==== Sys2Proof/Machine/Display.lean ====
section
/-!
DEFINITION. The display family (spec/43_sprite_display.md R190 to R193): clear screen, and sprite drawing by
exclusive-OR with collision detection.
-/

namespace Sys2Proof.Machine

/-- What drawing accumulates: the framebuffer and whether a set cell was turned off (R193). -/
structure Drawing where
  /-- The framebuffer so far. -/
  fb : Framebuffer
  /-- `collision`, cleared before the draw (R193). -/
  collision : Bool
  deriving DecidableEq, Repr

/-- The cell of row `r`, column offset `c` of a sprite drawn at `(x0, y0)`: one modulo over the linear index, no
reduction of the coordinates beforehand (R193). -/
def spriteCell (x0 y0 r c : Nat) : Nat := (x0 + c + Config.fbWidth * (y0 + r)) % Config.fbCells

/-- The sprite bit at column offset `c` of a row: bit `7 - c`, so that bit 7 is the leftmost pixel (R191). -/
def spriteBit (b : Byte) (c : Nat) : Bool := b.getLsbD (7 - c)

/-- Toggle one cell, and record a collision if it was set (R193). -/
def drawCell (cell : Nat) (d : Drawing) : Drawing :=
  ⟨fbToggle d.fb cell, d.collision || fbCell d.fb cell⟩

/-- Draw one row of a sprite, columns 0 to 7 (R193). -/
def drawRow (x0 y0 r : Nat) (b : Byte) (d : Drawing) : Drawing :=
  (List.range 8).foldl (fun d c => if spriteBit b c then drawCell (spriteCell x0 y0 r c) d else d) d

/-- Draw the rows of a sprite from row `r` on (R193). -/
def drawRows (x0 y0 r : Nat) (rows : List Byte) (d : Drawing) : Drawing :=
  match rows with
  | [] => d
  | b :: rest => drawRows x0 y0 (r + 1) rest (drawRow x0 y0 r b d)

/-- `00E0`, `CLS`: all cells 0 and `REDRAW` set; `VF` is not written (R192). -/
def execCls (s : State) : Host.Outcome State Fault Refusal :=
  .next { s with fb := fbClear, redraw := true }.advance

/-- What `DRW` draws: the `N` bytes at `I`, at `(V[X], V[Y])`, on the framebuffer as it stands (R193). -/
def spriteDrawn (x y n : BitVec 4) (s : State) : Drawing :=
  drawRows (s.getV x).toNat (s.getV y).toNat 0 (s.mem.readBytes s.i.toNat n.toNat) ⟨s.fb, false⟩

/-- `DXYN`, `DRW Vx, Vy, N`: `MEM_RANGE` before any cell is touched, else draw, set `REDRAW`, and leave the collision
in `VF` (R193, R255). -/
def execDrw (x y n : BitVec 4) (s : State) : Host.Outcome State Fault Refusal :=
  let d := spriteDrawn x y n s
  accessing n.toNat s ({ s with fb := d.fb, redraw := true }.setFlag (flagByte d.collision)).advance

end Sys2Proof.Machine
end

