-- ==== Sys2Proof/Machine/IndexMem.lean ====
section
/-!
DEFINITION. The index-register and memory instructions (spec/44_keypad_timer_memory.md R205 to R210). `I` may hold
any 16-bit value; it is checked only where it forms an address (spec/10_state.md R24).
-/

namespace Sys2Proof.Machine

/-- `ANNN`, `LD I, NNN` (R205). -/
def execLdI (nnn : BitVec 12) (s : State) : Host.Outcome State Fault Refusal :=
  .next { s with i := addressOperand nnn }.advance

/-- `FX1E`, `ADD I, Vx`: the sum truncated to 16 bits, the flag set when the unbounded sum exceeds 4095 and cleared
otherwise (R206). -/
def execAddI (x : BitVec 4) (s : State) : Host.Outcome State Fault Refusal :=
  .next ({ s with i := s.i + (s.getV x).setWidth 16 }.setFlag (flagIndexOverflow s.i (s.getV x))).advance

/-- `FX29`, `LD F, Vx`: five times the whole byte (R207). -/
def execLdF (x : BitVec 4) (s : State) : Host.Outcome State Fault Refusal :=
  .next { s with i := 5 * (s.getV x).setWidth 16 }.advance

/-- `FX33`, `LD B, Vx`: the three decimal digits at `I`, `I + 1`, `I + 2`; `I` stays (R208, R255). -/
def execLdB (x : BitVec 4) (s : State) : Host.Outcome State Fault Refusal :=
  accessing 3 s { s with mem := s.mem.writeBytes s.i.toNat (decimalDigits (s.getV x)) }.advance

/-- `FX55`, `LD [I], Vx`: store `V[0]` to `V[X]` and advance `I` by `X + 1` (R209, R255). -/
def execStoreRegs (x : BitVec 4) (s : State) : Host.Outcome State Fault Refusal :=
  accessing (x.toNat + 1) s
    { s with mem := s.mem.writeBytes s.i.toNat (s.regsUpTo x), i := s.i + x.setWidth 16 + 1 }.advance

/-- `FX65`, `LD Vx, [I]`: load `V[0]` to `V[X]` and advance `I` by `X + 1` (R210, R255). -/
def execLoadRegs (x : BitVec 4) (s : State) : Host.Outcome State Fault Refusal :=
  accessing (x.toNat + 1) s { s with v := s.regsLoaded x, i := s.i + x.setWidth 16 + 1 }.advance

end Sys2Proof.Machine
end

