-- ==== Sys2Proof/Machine/KeyTimer.lean ====
section
/-!
DEFINITION. The keypad and delay-timer instructions (spec/44_keypad_timer_memory.md R200 to R204). The keypad is the
host's; no handler writes it (R212).
-/

namespace Sys2Proof.Machine

/-- `EX9E`, `SKP Vx`: `KEY_RANGE` when `V[X]` names no key, else skip if the key is held (R200, R257). -/
def execSkp (x : BitVec 4) (s : State) : Host.Outcome State Fault Refusal :=
  match keyIndex (s.getV x) with
  | none => report .keyRange ((s.getV x).setWidth 16) s
  | some k => .next (s.skipIf (s.keyHeld k))

/-- `EXA1`, `SKNP Vx`: `KEY_RANGE` when `V[X]` names no key, else skip if the key is not held (R201, R257). -/
def execSknp (x : BitVec 4) (s : State) : Host.Outcome State Fault Refusal :=
  match keyIndex (s.getV x) with
  | none => report .keyRange ((s.getV x).setWidth 16) s
  | some k => .next (s.skipIf (!s.keyHeld k))

/-- `FX07`, `LD Vx, DT`: the value before this cycle's tick (R203, R127). -/
def execLdVxDt (x : BitVec 4) (s : State) : Host.Outcome State Fault Refusal :=
  .next (s.setV x s.dt).advance

/-- `FX0A`, `LD Vx, K`: a poll; with no key held nothing is written and `pc` stays, and the cycle completes all the
same (R202). -/
def execLdVxK (x : BitVec 4) (s : State) : Host.Outcome State Fault Refusal :=
  match s.lastHeldKey with
  | none => .next s
  | some k => .next (s.setV x (BitVec.ofNat 8 k)).advance

/-- `FX15`, `LD DT, Vx`: the tick of the same cycle follows (R204, R127). -/
def execLdDtVx (x : BitVec 4) (s : State) : Host.Outcome State Fault Refusal :=
  .next { s with dt := s.getV x }.advance

end Sys2Proof.Machine
end

