-- ==== Sys2Proof/Machine/Step.lean ====
section
/-!
DEFINITION. One cycle of the core (spec/40_fetch_dispatch.md R120): range check, fetch, decode, handler, timer tick.
-/

namespace Sys2Proof.Machine

/-- One `step` of the core: one cycle, executing at most one instruction (R2, R120). -/
def step (s : State) : Host.Outcome State Fault Refusal :=
  match s.fetch with
  | .error f => .fault f
  | .ok i => completeCycle (exec i s)

/-- `s` with the instruction word `w` of `nbits` bits (the bits above zero) stored at `pc` and `pc + 1`, high byte
first, where the next step fetches it (R64, R121). It stands for the load of a program from outside (R233; assumption
7). From a `pc` above 4094 nothing can be fetched (R70), and nothing is stored. -/
def State.withFetchWord (s : State) (nbits w : Nat) : State :=
  if s.pc.toNat > 4094 then s
  else { s with mem := s.mem.placeWord s.pc.toNat (BitVec.ofNat 16 (w % 2 ^ nbits)) }

end Sys2Proof.Machine
end

