-- ==== Sys2Proof/Machine/External.lean ====
section
/-!
DEFINITION. The host's side of the core: the seven operations of spec/50_host_interface.md R230, each atomic and each
between cycles (R231). A run is a list of operations. A reported cycle is here what it is on the hardware, a `step`
that changes nothing and drives the diagnostic record (spec/60_exceptions.md R251); `Host.Core`'s `step` maps the same
cycle to a fault.
-/

namespace Sys2Proof.Machine

/-- An operation of the host (R230). A key number has 4 bits and a cell number 11, so that an index out of range
cannot be expressed (R235, R237). -/
inductive HostOp where
  /-- `reset` (R290, R291). -/
  | reset
  /-- `load(P)`: a raw byte sequence, copied to 512 (R233). -/
  | load (image : List Byte)
  /-- `step`: one cycle (R232). Its random byte is the model's free value (R238; assumption 2). -/
  | step
  /-- `set_key(k, b)` (R235). -/
  | setKey (k : BitVec 4) (b : Bool)
  /-- `read_fb(c)` (R237). -/
  | readFb (c : BitVec 11)
  /-- `read_redraw` (R236). -/
  | readRedraw
  /-- `clear_redraw` (R236). -/
  | clearRedraw
  deriving DecidableEq, Repr

/-- What an operation returns to the host. -/
inductive HostReply where
  /-- The operation was performed and returns nothing. -/
  | done
  /-- A `step`'s diagnostic output: none in a completed cycle (`valid = 0`), the record in a reported one (R239). -/
  | stepped (diag : Option Diag)
  /-- `LOAD_TOO_LONG`: the load was refused whole (R234, R258), with the condition's `code`, `word` and `aux` (R250). -/
  | loadTooLong (code : BitVec 3) (word aux : Word)
  /-- The bit that `read_fb` or `read_redraw` returns. -/
  | bit (b : Bool)
  /-- The cycle's instruction has no meaning in the model; no instruction is without one. -/
  | notRun
  deriving DecidableEq, Repr

/-- The refusal of an image of `len` bytes: condition 7, `word` 0, `aux` the length, at most 65535 (R250, R258). -/
def loadRefusal (len : Nat) : HostReply := .loadTooLong 7 0 (BitVec.ofNat 16 (min len 65535))

/-- `load(P)`: `MEM[512 + k] <- P[k]` and nothing else, or, of an image longer than 3584 bytes, nothing at all (R233,
R234). -/
def loadImage (image : List Byte) (s : State) : State × HostReply :=
  if image.length > Config.maxProgram then (s, loadRefusal image.length)
  else ({ s with mem := s.mem.writeBytes Config.programBase image }, .done)

/-- `step`: the state after the cycle and its diagnostic output; a reported cycle leaves the state as it was (R232,
R239, R251). -/
def hostStep (s : State) : State × HostReply :=
  match step s with
  | .next t => (t, .stepped none)
  | .fault f => (s, .stepped (some f.diag))
  | .refused _ => (s, .notRun)

/-- `reset`: every element of the spec's state at its reset value (R290, R291). The position in the random input is no
element of the spec's state and goes on, so that a reset does not bring the same bytes again (R238; assumption 2). -/
def hostReset (s : State) : State := { State.reset with draws := s.draws }

/-- `set_key(k, b)`: `KEY[k] <- b` (R235). -/
def setKey (k : BitVec 4) (b : Bool) (s : State) : State :=
  { s with key := if b then s.key ||| BitVec.twoPow 16 k.toNat else s.key &&& ~~~(BitVec.twoPow 16 k.toNat) }

/-- One operation: the state after it and what it returns (R230). -/
def hostOp (op : HostOp) (s : State) : State × HostReply :=
  match op with
  | .reset => (hostReset s, .done)
  | .load image => loadImage image s
  | .step => hostStep s
  | .setKey k b => (setKey k b s, .done)
  | .readFb c => (s, .bit (fbCell s.fb c.toNat))
  | .readRedraw => (s, .bit s.redraw)
  | .clearRedraw => ({ s with redraw := false }, .done)

/-- The state after a list of operations (R231). -/
def hostRun (ops : List HostOp) (s : State) : State := ops.foldl (fun s op => (hostOp op s).1) s

/-- Where a run stands in the lifecycle (R39, R231). -/
inductive HostPhase where
  /-- No `reset` yet: the state is not defined. -/
  | off
  /-- Right after `reset`: the one moment at which `load` is defined (R233). -/
  | fresh
  /-- Any later moment. -/
  | running
  deriving DecidableEq, Repr

/-- The runs the interface allows: `reset` first, at most one `load` and that in the state reset leaves, then the
other operations in any order; a later `reset` starts a new run (R231). What is not allowed is assumed never to happen
(R240; assumption 6). -/
def legalRun : HostPhase → List HostOp → Bool
  | _, [] => true
  | .off, op :: ops => op == .reset && legalRun .fresh ops
  | _, .reset :: ops => legalRun .fresh ops
  | .fresh, .load _ :: ops => legalRun .running ops
  | .running, .load _ :: _ => false
  | _, _ :: ops => legalRun .running ops

end Sys2Proof.Machine
end

