-- ==== Sys2Proof/Safety.lean ====
section
/-!
DEFINITION. The terms claims are stated in: what an instruction leaves unchanged, the invariant of the reachable
states (spec/10_state.md R26, R38), a held core (spec/60_exceptions.md R251) and the end-of-program convention
(spec/40_fetch_dispatch.md R131).
-/

namespace Sys2Proof.Machine

/-- The state beside the general registers and `pc`, in the parts a frame names. -/
inductive Part where
  /-- `I` (R24). -/
  | index
  /-- `STACK` and `SP` (R27, R28). -/
  | callStack
  /-- Every byte of `MEM` (R29). -/
  | memory
  /-- `FB` and `REDRAW` (R30, R31). -/
  | display
  /-- `DT` (R33). -/
  | timer
  /-- `KEY` (R32). -/
  | keypad
  /-- The model's own count of random bytes drawn. -/
  | draws
  deriving DecidableEq, Repr

/-- `t` has the same as `s` in a part. Memory is compared byte by byte, at every address. -/
def Keeps (p : Part) (s t : State) : Prop :=
  match p with
  | .index => t.i = s.i
  | .callStack => t.stack = s.stack ∧ t.sp = s.sp
  | .memory => ∀ a, t.mem.read a = s.mem.read a
  | .display => t.fb = s.fb ∧ t.redraw = s.redraw
  | .timer => t.dt = s.dt
  | .keypad => t.key = s.key
  | .draws => t.draws = s.draws

/-- The frame of an instruction: from `s` to `t` no general register outside `regs` changed, and no part outside
`parts`. `pc` may have changed. -/
def Frame (regs : BitVec 4 → Prop) (parts : List Part) (s t : State) : Prop :=
  (∀ z, ¬regs z → t.getV z = s.getV z) ∧ ∀ p, p ∉ parts → Keeps p s t

/-- No byte of memory outside the `n` bytes at `a` changed. -/
def MemSameOutside (a n : Nat) (s t : State) : Prop :=
  ∀ b, ¬(a ≤ b ∧ b < a + n) → t.mem.read b = s.mem.read b

/-- The result of a flag-writing register instruction: `V[X]` holds `result` unless `X = 15`, `VF` holds `flag`
whatever `X` is (R126), `pc` advances by 2 and nothing else changes. -/
def WritesRegAndFlag (x : BitVec 4) (result flag : Nat) (s : State) (o : Host.Outcome State Fault Refusal) : Prop :=
  ∃ t, o = .next t ∧ (x ≠ 15#4 → (t.getV x).toNat = result) ∧ (t.getV 15#4).toNat = flag ∧ t.pc = s.pc + 2 ∧
    Frame (fun z => z = x ∨ z = 15#4) [] s t

/-- The result of a skip: `pc` advances by 4 if the condition holds and by 2 if not, and nothing else changes (R26
(e)). -/
def Skips (c : Prop) (s : State) (o : Host.Outcome State Fault Refusal) : Prop :=
  ∃ t, o = .next t ∧ (c → t.pc = s.pc + 4) ∧ (¬c → t.pc = s.pc + 2) ∧ Frame (fun _ => False) [] s t

/-- The general registers an instruction may write: its destination, and `VF` for the flag writers (R21, R23). -/
def writesReg (i : Instr) (z : BitVec 4) : Prop :=
  match i with
  | .cls | .ret | .jp _ | .call _ | .seImm _ _ | .sneImm _ _ | .seReg _ _ | .sneReg _ _ | .ldI _ | .jpV0 _ | .skp _
  | .sknp _ | .ldDtVx _ | .ldF _ | .ldB _ | .storeRegs _ => False
  | .ldImm x _ | .addImm x _ | .ldReg x _ | .rnd x _ | .ldVxDt x | .ldVxK x => z = x
  | .orReg x _ | .andReg x _ | .xorReg x _ | .addReg x _ | .sub x _ | .shr x _ | .subn x _ | .shl x _ =>
    z = x ∨ z = 15#4
  | .drw _ _ _ | .addI _ => z = 15#4
  | .loadRegs x => z.toNat ≤ x.toNat

/-- The parts of the rest of the state an instruction may write, `pc` apart: the "written by" column of R20's table.
No instruction writes the keypad. -/
def writesParts : Instr → List Part
  | .cls | .drw _ _ _ => [.display]
  | .ret | .call _ => [.callStack]
  | .ldI _ | .addI _ | .ldF _ | .loadRegs _ => [.index]
  | .rnd _ _ => [.draws]
  | .ldDtVx _ => [.timer]
  | .ldB _ => [.memory]
  | .storeRegs _ => [.memory, .index]
  | .jp _ | .seImm _ _ | .sneImm _ _ | .seReg _ _ | .ldImm _ _ | .addImm _ _ | .ldReg _ _ | .orReg _ _ | .andReg _ _
  | .xorReg _ _ | .addReg _ _ | .sub _ _ | .shr _ _ | .subn _ _ | .shl _ _ | .sneReg _ _ | .jpV0 _ | .skp _ | .sknp _
  | .ldVxDt _ | .ldVxK _ => []

/-- How many bytes of memory at `I` an instruction touches as data: `N`, 3 or `X + 1` (R66, R69). -/
def dataBytes : Instr → Nat
  | .drw _ _ n => n.toNat
  | .ldB _ => 3
  | .storeRegs x | .loadRegs x => x.toNat + 1
  | .cls | .ret | .jp _ | .call _ | .seImm _ _ | .sneImm _ _ | .seReg _ _ | .ldImm _ _ | .addImm _ _ | .ldReg _ _
  | .orReg _ _ | .andReg _ _ | .xorReg _ _ | .addReg _ _ | .sub _ _ | .shr _ _ | .subn _ _ | .shl _ _ | .sneReg _ _
  | .ldI _ | .jpV0 _ | .rnd _ _ | .skp _ | .sknp _ | .ldVxDt _ | .ldVxK _ | .ldDtVx _ | .addI _ | .ldF _ => 0

/-- Cell `k` lies under a set bit of the sprite whose rows are `rows`, drawn at `(x0, y0)`: the placement mask of R194
(b), written from R193's index without the drawing loop. -/
def spriteCovers (x0 y0 : Nat) (rows : List Byte) (k : Nat) : Prop :=
  ∃ r c, ∃ h : r < rows.length, c < 8 ∧ rows[r].getLsbD (7 - c) = true ∧ k = (x0 + c + 64 * (y0 + r)) % 2048

/-- The invariant of the reachable states: memory is canonical, `pc` is at most 4350 (R26, R38), and every stack slot
holds 0 or the address of an instruction that was fetched, at most 4094 (R27, R173). -/
def State.Inv (s : State) : Prop :=
  s.mem.wf = true ∧ s.pc.toNat ≤ 4350 ∧ ∀ j : Fin 16, s.stack[j].toNat ≤ 4094

/-- The core makes progress: its next cycle completes. -/
def State.Completes (s : State) : Prop := ∃ t, step s = .next t

/-- The core holds on a reported condition (R251). A held core has not ended (R131). -/
def State.Holds (s : State) (f : Fault) : Prop := step s = .fault f

/-- The program has ended at `pc`: the word there is a jump to itself (R131, D36). -/
def State.Ended (s : State) : Prop :=
  s.pc.toNat ≤ 4094 ∧ ∃ nnn : BitVec 12, decode s.fetchWord = .instr (.jp nnn) ∧ nnn.toNat = s.pc.toNat

/-- The host operations that can happen while the core holds: every one but `reset`, and `load`, which is defined
only right after `reset` (R233, R240). -/
def HostOp.duringRun : HostOp → Bool
  | .reset | .load _ => false
  | .step | .setKey _ _ | .readFb _ | .readRedraw | .clearRedraw => true

end Sys2Proof.Machine
end

