-- ==== Sys2Proof/Certificates/Slice0/Obligations.lean ====
section
/-!
DEFINITION. The statements for the provers. Each formalises a numbered rule of spec/, named in its docstring and in
OBLIGATIONS.json. `pc` arithmetic is on 16-bit words, which is `trunc_16`; register arithmetic is on natural numbers with
the truncation written out, as spec/00_scope.md R6 asks. Where a clause rests on a decision of the spec's own (D<n> of
spec/92_eei_decisions.md) the docstring names it.
-/

open Sys2Proof Sys2Proof.Machine

/-! ## Encoding -/

/-- R103: decoding the encoding of an instruction gives the instruction back, every operand at every value. -/
def Obligations.DecodeEncodeRoundTrip : Prop := ∀ i : Instr, decode (encode i) = .instr i

/-- R96: a word selects a row exactly when `(W and mask) = match`, no word selects two rows, and the map has 33. -/
def Obligations.DecodeSelectsExactlyOneRow : Prop :=
  opcodeRows.length = 33 ∧
  (∀ w i, decode w = .instr i → opRow i ∈ opcodeRows ∧ selects w (opRow i)) ∧
  ∀ w row, row ∈ opcodeRows → selects w row → ∃ i, decode w = .instr i ∧ opRow i = row

/-- R97 (a) to (d): the unrecognised words, family by family. -/
def Obligations.UnrecognisedWordsAreThoseListed : Prop :=
  ∀ w : Word, decode w = .unknown w ↔
    (fieldOp w = 0x0 ∧ fieldNN w ∉ [0xE0, 0xEE]) ∨
    (fieldOp w = 0x8 ∧ fieldN w ∈ [0x8, 0x9, 0xA, 0xB, 0xC, 0xD, 0xF]) ∨
    (fieldOp w = 0xE ∧ fieldNN w ∉ [0x9E, 0xA1]) ∨
    (fieldOp w = 0xF ∧ fieldNN w ∉ [0x07, 0x0A, 0x15, 0x1E, 0x29, 0x33, 0x55, 0x65])

/-- R94, R95: the bits the selector does not cover and no field uses are ignored. That they are is an inference and a
decision of the spec's own (R94 "derived", D18). -/
def Obligations.UnexaminedBitsAreIgnored : Prop :=
  (∀ z : BitVec 4, decode (encodeXI 0x0 z 0xE0) = .instr .cls ∧ decode (encodeXI 0x0 z 0xEE) = .instr .ret) ∧
  ∀ x y z : BitVec 4, decode (encodeXYN 0x5 x y z) = .instr (.seReg x y) ∧
    decode (encodeXYN 0x9 x y z) = .instr (.sneReg x y)

/-- The words E1 to E12 of spec/95_test_vectors.md decode as its table says (R91, R96). -/
def Obligations.SampleWordsDecode : Prop :=
  decode 0x8AB4 = .instr (.addReg 0xA 0xB) ∧ decode 0xD125 = .instr (.drw 0x1 0x2 0x5) ∧
  decode 0x120E = .instr (.jp 0x20E) ∧ decode 0xF265 = .instr (.loadRegs 0x2) ∧ decode 0x00E0 = .instr .cls ∧
  decode 0x03E0 = .instr .cls ∧ decode 0x5127 = .instr (.seReg 0x1 0x2) ∧ decode 0x0000 = .unknown 0x0000 ∧
  decode 0x8128 = .unknown 0x8128 ∧ decode 0xE29F = .unknown 0xE29F ∧ decode 0xF018 = .unknown 0xF018 ∧
  decode 0xE0A1 = .instr (.sknp 0x0)

/-! ## The cycle -/

/-- R121: the word fetched is `256·MEM[pc] + MEM[pc + 1]`. -/
def Obligations.FetchIsBigEndian : Prop :=
  ∀ s : State, s.fetchWord.toNat = 256 * (s.mem.read s.pc.toNat).toNat + (s.mem.read (s.pc.toNat + 1)).toNat

/-- R120: when the word at an in-range `pc` is recognised, the cycle is that instruction's handler followed by the
timer tick, and a condition the handler reports ends the cycle without one. -/
def Obligations.StepRunsDecodedInstruction : Prop :=
  ∀ (s : State) (i : Instr), s.pc.toNat ≤ 4094 → decode s.fetchWord = .instr i →
    (∀ t, exec i s = .next t → step s = .next { t with dt := if t.dt = 0 then 0 else t.dt - 1 }) ∧
    (∀ f, exec i s = .fault f → step s = .fault f) ∧ ∀ r, exec i s = .refused r → step s = .refused r

/-- R252: a word of no row reports `UNKNOWN_INSTRUCTION` with `pc`, the word and 0. -/
def Obligations.UnknownWordIsReported : Prop :=
  ∀ s : State, s.pc.toNat ≤ 4094 → decode s.fetchWord = .unknown s.fetchWord →
    step s = .fault (.unknownInstruction ⟨s.pc, s.fetchWord, 0⟩)

/-- R70: a cycle that starts with `pc > 4094` reports `FETCH_RANGE`, whatever memory holds (the spec's decision D7). -/
def Obligations.FetchOutOfRangeIsReported : Prop :=
  ∀ s : State, 4094 < s.pc.toNat → step s = .fault (.fetchRange ⟨s.pc, 0, 0⟩)

/-- The model's own: an instruction word placed at `pc` is what the next step runs (log entry 7; R64, R121). -/
def Obligations.PlacedWordIsRunNext : Prop :=
  ∀ (s : State) (nbits w : Nat) (i : Instr), s.pc.toNat ≤ 4094 → decodeTableWord nbits w = some i →
    step (s.withFetchWord nbits w) = completeCycle (exec i (s.withFetchWord nbits w))

/-! ## Register and ALU instructions -/

/-- R140, `6XNN`. -/
def Obligations.LoadImmediateResult : Prop :=
  ∀ (x : BitVec 4) (nn : Byte) (s : State), ∃ t, exec (.ldImm x nn) s = .next t ∧ t.getV x = nn ∧
    t.pc = s.pc + 2 ∧ Frame (· = x) [] s t

/-- R141, `7XNN`: wraps modulo 256, no flag. -/
def Obligations.AddImmediateResult : Prop :=
  ∀ (x : BitVec 4) (nn : Byte) (s : State), ∃ t, exec (.addImm x nn) s = .next t ∧
    (t.getV x).toNat = ((s.getV x).toNat + nn.toNat) % 256 ∧ t.pc = s.pc + 2 ∧ Frame (· = x) [] s t

/-- R142, `8XY0`. -/
def Obligations.CopyRegisterResult : Prop :=
  ∀ (x y : BitVec 4) (s : State), ∃ t, exec (.ldReg x y) s = .next t ∧ t.getV x = s.getV y ∧
    t.pc = s.pc + 2 ∧ Frame (· = x) [] s t

/-- R143, R144, R145, `8XY1`, `8XY2`, `8XY3`: the bitwise result, and `VF` cleared, also when `X = 15` (D15). -/
def Obligations.LogicOperationsClearFlag : Prop :=
  ∀ (x y : BitVec 4) (s : State),
    WritesRegAndFlag x ((s.getV x).toNat ||| (s.getV y).toNat) 0 s (exec (.orReg x y) s) ∧
    WritesRegAndFlag x ((s.getV x).toNat &&& (s.getV y).toNat) 0 s (exec (.andReg x y) s) ∧
    WritesRegAndFlag x ((s.getV x).toNat ^^^ (s.getV y).toNat) 0 s (exec (.xorReg x y) s)

/-- R146, `8XY4`: the sum modulo 256, and the carry in `VF`, also when `X = 15` (D15). -/
def Obligations.AddRegisterCarry : Prop :=
  ∀ (x y : BitVec 4) (s : State),
    WritesRegAndFlag x (((s.getV x).toNat + (s.getV y).toNat) % 256)
      (if (s.getV x).toNat + (s.getV y).toNat > 255 then 1 else 0) s (exec (.addReg x y) s)

/-- R147, R149, `8XY5` and `8XY7`: the difference modulo 256 in both operand orders, not-borrow in `VF` (D15). -/
def Obligations.SubtractNotBorrow : Prop :=
  ∀ (x y : BitVec 4) (s : State),
    WritesRegAndFlag x ((256 + (s.getV x).toNat - (s.getV y).toNat) % 256)
      (if (s.getV x).toNat ≥ (s.getV y).toNat then 1 else 0) s (exec (.sub x y) s) ∧
    WritesRegAndFlag x ((256 + (s.getV y).toNat - (s.getV x).toNat) % 256)
      (if (s.getV y).toNat ≥ (s.getV x).toNat then 1 else 0) s (exec (.subn x y) s)

/-- R148, R150, `8XY6` and `8XYE`: `V[X]` shifted by one in place, the bit shifted out in `VF`, `Y` unused (D15, D16). -/
def Obligations.ShiftsCaptureBitOut : Prop :=
  ∀ (x y : BitVec 4) (s : State),
    WritesRegAndFlag x ((s.getV x).toNat / 2) ((s.getV x).toNat % 2) s (exec (.shr x y) s) ∧
    WritesRegAndFlag x ((s.getV x).toNat * 2 % 256) ((s.getV x).toNat / 128) s (exec (.shl x y) s)

/-- `CXNN` (R151): the next byte of the model's free input under the mask, and no bit outside the mask (log entry 2, D27). -/
def Obligations.RandomByteUnderMask : Prop :=
  ∀ (x : BitVec 4) (nn : Byte) (s : State), ∃ t, exec (.rnd x nn) s = .next t ∧
    t.getV x = Config.rnd s.draws &&& nn ∧ (∀ k, nn.getLsbD k = false → (t.getV x).getLsbD k = false) ∧
    t.draws = s.draws + 1 ∧ t.pc = s.pc + 2 ∧ Frame (· = x) [.draws] s t

/-! ## Control flow -/

/-- R170, R171, `1NNN` and `BNNN`: the target, and the target plus `V[0]`, never reduced. -/
def Obligations.JumpTargets : Prop :=
  ∀ (nnn : BitVec 12) (s : State),
    (∃ t, exec (.jp nnn) s = .next t ∧ t.pc.toNat = nnn.toNat ∧ Frame (fun _ => False) [] s t) ∧
    ∃ t, exec (.jpV0 nnn) s = .next t ∧ t.pc.toNat = nnn.toNat + (s.getV 0#4).toNat ∧ Frame (fun _ => False) [] s t

/-- R172, R253, `2NNN`: below 16 nested calls the address of the call is pushed and the target taken; on a full stack
`STACK_OVERFLOW` is reported with 16 (D4). -/
def Obligations.CallPushesItsAddress : Prop :=
  ∀ (nnn : BitVec 12) (s : State),
    (∀ h : s.sp.val < 16, ∃ t, exec (.call nnn) s = .next t ∧ t.stack[s.sp.val] = s.pc ∧
      (∀ j : Fin 16, j.val ≠ s.sp.val → t.stack[j] = s.stack[j]) ∧ t.sp.val = s.sp.val + 1 ∧
      t.pc.toNat = nnn.toNat ∧ Frame (fun _ => False) [.callStack] s t) ∧
    (s.sp.val = 16 → exec (.call nnn) s = .fault (.stackOverflow ⟨s.pc, s.fetchWord, 16⟩))

/-- R173, R254, `00EE`: the popped address plus 2, the slots as they were; on an empty stack `STACK_UNDERFLOW` is
reported (D5). -/
def Obligations.ReturnPopsAndAdvances : Prop :=
  ∀ s : State,
    (∀ h : 0 < s.sp.val, ∃ t, exec .ret s = .next t ∧ t.pc = s.stack[s.sp.val - 1]'(by omega) + 2 ∧
      t.sp.val + 1 = s.sp.val ∧ t.stack = s.stack ∧ Frame (fun _ => False) [.callStack] s t) ∧
    (s.sp.val = 0 → exec .ret s = .fault (.stackUnderflow ⟨s.pc, s.fetchWord, 0⟩))

/-- R179: a call and its matching return, one that finds `SP` as the call left it and the call's address in the slot the
call wrote, restore `SP` and go on after the call. The slots at `SP` and above may hold anything: the subroutine may have
called and returned itself. -/
def Obligations.CallReturnRoundTrip : Prop :=
  ∀ (nnn : BitVec 12) (s t u : State), exec (.call nnn) s = .next t → u.sp = t.sp →
    u.stack[s.sp.val]? = some s.pc → ∃ r, exec .ret u = .next r ∧ r.pc = s.pc + 2 ∧ r.sp = s.sp

/-- R174 to R177, `3XNN`, `4XNN`, `5XY0`, `9XY0`. -/
def Obligations.SkipsCompareRegisters : Prop :=
  ∀ (x y : BitVec 4) (nn : Byte) (s : State),
    Skips (s.getV x = nn) s (exec (.seImm x nn) s) ∧ Skips (s.getV x ≠ nn) s (exec (.sneImm x nn) s) ∧
    Skips (s.getV x = s.getV y) s (exec (.seReg x y) s) ∧ Skips (s.getV x ≠ s.getV y) s (exec (.sneReg x y) s)

/-! ## Display -/

/-- R192, `00E0`. -/
def Obligations.ClearScreenResult : Prop :=
  ∀ s : State, ∃ t, exec .cls s = .next t ∧ (∀ c, c < 2048 → fbCell t.fb c = false) ∧ t.redraw = true ∧
    t.pc = s.pc + 2 ∧ Frame (fun _ => False) [.display] s t

/-- R193, `DXYN`: when the sprite lies in memory, exactly the cells under its set bits are inverted, `VF` is 1 exactly
when one of them was set, and `REDRAW` is set; otherwise `MEM_RANGE` is reported (D6, D14, D23, D24, D25, D38). -/
def Obligations.DrawInvertsCoveredCells : Prop :=
  ∀ (x y n : BitVec 4) (s : State),
    let covers := spriteCovers (s.getV x).toNat (s.getV y).toNat (s.mem.readBytes s.i.toNat n.toNat)
    (n.toNat = 0 ∨ s.i.toNat + n.toNat - 1 ≤ 4095 → ∃ t, exec (.drw x y n) s = .next t ∧
      (∀ k, k < 2048 → (covers k → fbCell t.fb k = !fbCell s.fb k) ∧ (¬covers k → fbCell t.fb k = fbCell s.fb k)) ∧
      ((∃ k, covers k ∧ fbCell s.fb k = true) → t.getV 15#4 = 1) ∧
      ((¬∃ k, covers k ∧ fbCell s.fb k = true) → t.getV 15#4 = 0) ∧
      t.redraw = true ∧ t.pc = s.pc + 2 ∧ Frame (· = 15#4) [.display] s t) ∧
    (1 ≤ n.toNat ∧ s.i.toNat + n.toNat - 1 > 4095 → exec (.drw x y n) s = .fault (.memRange ⟨s.pc, s.fetchWord, s.i⟩))

/-- R194 (b): drawing the same sprite at the same coordinates again restores the framebuffer, and the second draw
collides exactly when a covered cell ended the first at 1. -/
def Obligations.DrawTwiceRestores : Prop :=
  ∀ (x y n : BitVec 4) (s t u : State), exec (.drw x y n) s = .next t → u.fb = t.fb → u.mem = s.mem → u.i = s.i →
    u.getV x = s.getV x → u.getV y = s.getV y →
    let covers := spriteCovers (s.getV x).toNat (s.getV y).toNat (s.mem.readBytes s.i.toNat n.toNat)
    ∃ r, exec (.drw x y n) u = .next r ∧ r.fb = s.fb ∧
      (r.getV 15#4 = 1 ↔ ∃ k, covers k ∧ fbCell t.fb k = true)

/-- R194 (c): the coordinates matter only through `(x0 + 64·y0) mod 2048`. -/
def Obligations.DrawDependsOnLinearStart : Prop :=
  ∀ (x y x' y' n : BitVec 4) (s u t : State), u.fb = s.fb → u.mem = s.mem → u.i = s.i →
    ((s.getV x).toNat + 64 * (s.getV y).toNat) % 2048 = ((u.getV x').toNat + 64 * (u.getV y').toNat) % 2048 →
    exec (.drw x y n) s = .next t →
    ∃ r, exec (.drw x' y' n) u = .next r ∧ r.fb = t.fb ∧ r.getV 15#4 = t.getV 15#4

/-- R194 (d): a draw changes at most eight cells a row. -/
def Obligations.DrawChangesAtMostItsPixels : Prop :=
  ∀ (x y n : BitVec 4) (s t : State), exec (.drw x y n) s = .next t →
    ((List.range 2048).filter fun k => fbCell t.fb k != fbCell s.fb k).length ≤ 8 * n.toNat

/-! ## Memory range -/

/-- R255: `DXYN`, `FX33`, `FX55` and `FX65` report `MEM_RANGE`, with the value of `I`, exactly when the last byte they
would touch lies above 4095 (D6); `ANNN`, `FX1E` and `FX29` never do, whatever `I` holds. -/
def Obligations.DataPastMemoryIsReported : Prop :=
  ∀ s : State, let out := Fault.memRange ⟨s.pc, s.fetchWord, s.i⟩
    (∀ x y n : BitVec 4, exec (.drw x y n) s = .fault out ↔ 1 ≤ n.toNat ∧ s.i.toNat + n.toNat - 1 > 4095) ∧
    (∀ x : BitVec 4, (exec (.ldB x) s = .fault out ↔ s.i.toNat + 2 > 4095) ∧
      (exec (.storeRegs x) s = .fault out ↔ s.i.toNat + x.toNat > 4095) ∧
      (exec (.loadRegs x) s = .fault out ↔ s.i.toNat + x.toNat > 4095)) ∧
    ∀ (nnn : BitVec 12) (x : BitVec 4) (r : Report), exec (.ldI nnn) s ≠ .fault (.memRange r) ∧
      exec (.addI x) s ≠ .fault (.memRange r) ∧ exec (.ldF x) s ≠ .fault (.memRange r)

/-! ## Keypad and timer -/

/-- R200, R201, R257, `EX9E` and `EXA1`: a skip on the key that `V[X]` names; `KEY_RANGE` with `V[X]` when it is above
15 and names none (D8). `FX0A` never reports it. -/
def Obligations.KeySkips : Prop :=
  ∀ (x : BitVec 4) (s : State), let out := Fault.keyRange ⟨s.pc, s.fetchWord, (s.getV x).setWidth 16⟩
    ((s.getV x).toNat ≤ 15 → Skips (s.key.getLsbD (s.getV x).toNat = true) s (exec (.skp x) s) ∧
      Skips (s.key.getLsbD (s.getV x).toNat = false) s (exec (.sknp x) s)) ∧
    (15 < (s.getV x).toNat → exec (.skp x) s = .fault out ∧ exec (.sknp x) s = .fault out) ∧
    ∀ f, exec (.ldVxK x) s ≠ .fault f

/-- R202, `FX0A`: the highest held key and the next instruction (D26), or, with no key held, nothing at all in the
handler, so that of the whole cycle only the tick remains (D13). -/
def Obligations.WaitForKeyRecordsHighest : Prop :=
  ∀ (x : BitVec 4) (s : State),
    (∀ k, k < 16 → s.key.getLsbD k = true → (∀ j, j < 16 → s.key.getLsbD j = true → j ≤ k) →
      ∃ t, exec (.ldVxK x) s = .next t ∧ (t.getV x).toNat = k ∧ t.pc = s.pc + 2 ∧ Frame (· = x) [] s t) ∧
    ((∀ k, k < 16 → s.key.getLsbD k = false) → exec (.ldVxK x) s = .next s ∧
      (s.pc.toNat ≤ 4094 → decode s.fetchWord = .instr (.ldVxK x) →
        step s = .next { s with dt := if s.dt = 0 then 0 else s.dt - 1 }))

/-- R203, R204, `FX07` and `FX15`, the handler alone: the tick is not in it. -/
def Obligations.TimerReadAndSet : Prop :=
  ∀ (x : BitVec 4) (s : State),
    (∃ t, exec (.ldVxDt x) s = .next t ∧ t.getV x = s.dt ∧ t.pc = s.pc + 2 ∧ Frame (· = x) [] s t) ∧
    ∃ t, exec (.ldDtVx x) s = .next t ∧ t.dt = s.getV x ∧ t.pc = s.pc + 2 ∧ Frame (fun _ => False) [.timer] s t

/-- R127: every completed cycle ends with one tick, which saturates at 0: `FX07` reads the value before it, after
`FX15` the timer is one below `V[X]`, after any other instruction one below what it was (D11). -/
def Obligations.EveryCompletedCycleTicks : Prop :=
  ∀ (s t : State) (i : Instr), decode s.fetchWord = .instr i → step s = .next t →
    (∀ x, i = .ldVxDt x → t.getV x = s.dt) ∧
    (∀ x, i = .ldDtVx x → t.dt.toNat = (s.getV x).toNat - 1) ∧
    ((∀ x, i ≠ .ldDtVx x) → t.dt.toNat = s.dt.toNat - 1)

/-- R129: after `k` completed cycles that do not execute `FX15`, `DT` is `max(0, DT_before - k)`. Between two cycles
nothing but `DT` is assumed kept, so the host may set keys and clear the redraw flag there (log entry 19). -/
def Obligations.TimerCountsInstructions : Prop :=
  ∀ (k : Nat) (run : Nat → State),
    (∀ j, j < k → (∃ t, step (run j) = .next t ∧ (run (j + 1)).dt = t.dt) ∧
      ∀ x, decode (run j).fetchWord ≠ .instr (.ldDtVx x)) →
    (run k).dt.toNat = (run 0).dt.toNat - k

/-! ## Index register and memory -/

/-- R205, R207, `ANNN` and `FX29` (`ANNN`'s operation is the spec's decision D21, the unmasked operand of `FX29` its
D35). -/
def Obligations.IndexLoads : Prop :=
  ∀ (nnn : BitVec 12) (x : BitVec 4) (s : State),
    (∃ t, exec (.ldI nnn) s = .next t ∧ t.i.toNat = nnn.toNat ∧ t.pc = s.pc + 2 ∧
      Frame (fun _ => False) [.index] s t) ∧
    ∃ t, exec (.ldF x) s = .next t ∧ t.i.toNat = 5 * (s.getV x).toNat ∧ t.pc = s.pc + 2 ∧
      Frame (fun _ => False) [.index] s t

/-- R206, `FX1E`: the sum truncated to 16 bits, and `VF` 1 or 0 as the unbounded sum exceeds 4095 or not (D17). -/
def Obligations.IndexAddOverflowFlag : Prop :=
  ∀ (x : BitVec 4) (s : State), ∃ t, exec (.addI x) s = .next t ∧
    t.i.toNat = (s.i.toNat + (s.getV x).toNat) % 65536 ∧
    (t.getV 15#4).toNat = (if s.i.toNat + (s.getV x).toNat > 4095 then 1 else 0) ∧ t.pc = s.pc + 2 ∧
    Frame (· = 15#4) [.index] s t

/-- R208, `FX33`: inside memory hundreds, tens and ones at `I`, `I + 1`, `I + 2`, and no other byte; past it
`MEM_RANGE` (D6). -/
def Obligations.DecimalDigitsStored : Prop :=
  ∀ (x : BitVec 4) (s : State),
    (s.i.toNat + 2 ≤ 4095 → ∃ t, exec (.ldB x) s = .next t ∧
      (t.mem.read s.i.toNat).toNat = (s.getV x).toNat / 100 ∧
      (t.mem.read (s.i.toNat + 1)).toNat = (s.getV x).toNat / 10 % 10 ∧
      (t.mem.read (s.i.toNat + 2)).toNat = (s.getV x).toNat % 10 ∧
      MemSameOutside s.i.toNat 3 s t ∧ t.pc = s.pc + 2 ∧ Frame (fun _ => False) [.memory] s t) ∧
    (s.i.toNat + 2 > 4095 → exec (.ldB x) s = .fault (.memRange ⟨s.pc, s.fetchWord, s.i⟩))

/-- R209, `FX55`: inside memory `V[0]` to `V[X]` at ascending addresses from `I`, no other byte, and `I` advanced by
`X + 1` (D37); past it `MEM_RANGE` (D6). -/
def Obligations.RegistersStored : Prop :=
  ∀ (x : BitVec 4) (s : State),
    (s.i.toNat + x.toNat ≤ 4095 → ∃ t, exec (.storeRegs x) s = .next t ∧
      (∀ z : BitVec 4, z.toNat ≤ x.toNat → t.mem.read (s.i.toNat + z.toNat) = s.getV z) ∧
      MemSameOutside s.i.toNat (x.toNat + 1) s t ∧ t.i.toNat = s.i.toNat + x.toNat + 1 ∧ t.pc = s.pc + 2 ∧
      Frame (fun _ => False) [.memory, .index] s t) ∧
    (s.i.toNat + x.toNat > 4095 → exec (.storeRegs x) s = .fault (.memRange ⟨s.pc, s.fetchWord, s.i⟩))

/-- R210, `FX65`: inside memory `V[0]` to `V[X]` from ascending addresses at `I`, memory unchanged, and `I` advanced by
`X + 1` (D37); past it `MEM_RANGE` (D6). -/
def Obligations.RegistersLoaded : Prop :=
  ∀ (x : BitVec 4) (s : State),
    (s.i.toNat + x.toNat ≤ 4095 → ∃ t, exec (.loadRegs x) s = .next t ∧
      (∀ z : BitVec 4, z.toNat ≤ x.toNat → t.getV z = s.mem.read (s.i.toNat + z.toNat)) ∧
      t.i.toNat = s.i.toNat + x.toNat + 1 ∧ t.pc = s.pc + 2 ∧ Frame (fun z => z.toNat ≤ x.toNat) [.index] s t) ∧
    (s.i.toNat + x.toNat > 4095 → exec (.loadRegs x) s = .fault (.memRange ⟨s.pc, s.fetchWord, s.i⟩))

/-- R209, R210: what `FX55` stored, `FX65` with the same `X` reads back once `I` is set to where it was (R297). -/
def Obligations.StoreThenLoadRestoresRegisters : Prop :=
  ∀ (x : BitVec 4) (s t u : State), exec (.storeRegs x) s = .next t → u.mem = t.mem → u.i = s.i →
    ∃ r, exec (.loadRegs x) u = .next r ∧ ∀ z : BitVec 4, z.toNat ≤ x.toNat → r.getV z = s.getV z

/-! ## The whole machine -/

/-- R38, R26, R27: every completed cycle keeps the invariant: canonical memory, `pc` at most 4350, stack slots at most
4094. -/
def Obligations.StepKeepsInvariant : Prop := ∀ s t : State, s.Inv → step s = .next t → t.Inv

/-- Every operation of the host keeps the invariant: a load of any length in particular, the way a program comes to run
(log entry 7), leaves memory canonical. The canonical form is the model's own (log entry 20), and so is a load in every
state (log entry 6). -/
def Obligations.HostOperationsKeepInvariant : Prop := ∀ (op : HostOp) (s : State), s.Inv → (hostOp op s).1.Inv

/-- The invariant holds at reset: R37's `pc` and stack slots are within its bounds (R38), and the memory of the model's
reset state is in canonical form, a form that is the model's own (log entry 20). -/
def Obligations.ResetHasInvariant : Prop := State.reset.Inv

/-- R20, R21, R23, and R24, R27, R28, R30 to R33 for the parts: no instruction changes a register or a part of the state
that these do not name it a writer of. The part `draws` is the model's own (log entry 2). -/
def Obligations.InstructionsWriteOnlyTheirState : Prop :=
  ∀ (i : Instr) (s t : State), exec i s = .next t → Frame (writesReg i) (writesParts i) s t

/-- R259, R250: the one condition each instruction can report, and when; no other instruction reports any. -/
def Obligations.ConditionsComeOnlyFromTheirInstructions : Prop :=
  ∀ (i : Instr) (s : State) (f : Fault), exec i s = .fault f →
    (f = .stackOverflow ⟨s.pc, s.fetchWord, 16⟩ ∧ (∃ nnn, i = .call nnn) ∧ s.sp.val = 16) ∨
    (f = .stackUnderflow ⟨s.pc, s.fetchWord, 0⟩ ∧ i = .ret ∧ s.sp.val = 0) ∨
    (f = .memRange ⟨s.pc, s.fetchWord, s.i⟩ ∧ 1 ≤ dataBytes i ∧ s.i.toNat + dataBytes i - 1 > 4095) ∨
    ∃ x, f = .keyRange ⟨s.pc, s.fetchWord, (s.getV x).setWidth 16⟩ ∧ (i = .skp x ∨ i = .sknp x) ∧
      15 < (s.getV x).toNat

/-- R232: a step is never refused: every cycle completes or reports a condition. -/
def Obligations.StepIsNeverRefused : Prop :=
  ∀ s : State, (∃ t, step s = .next t) ∨ ∃ f, step s = .fault f

/-- R130: for every instruction other than `CXNN` the next state does not depend on the random input. -/
def Obligations.RandomInputReachesOnlyRnd : Prop :=
  ∀ (i : Instr) (s t : State) (n : Nat), (∀ x nn, i ≠ .rnd x nn) → exec i s = .next t →
    exec i { s with draws := n } = .next { t with draws := n }

/-- R241, R31, R32: the core never clears `REDRAW`, never changes `FB` without setting it, and never writes `KEY`. -/
def Obligations.RedrawCoversEveryChange : Prop :=
  ∀ s t : State, step s = .next t →
    (s.redraw = true → t.redraw = true) ∧ (t.fb ≠ s.fb → t.redraw = true) ∧ t.key = s.key

/-- R131: from a jump to itself a cycle changes nothing but `DT`, and the program stays ended (the convention is the
spec's decision D36). -/
def Obligations.EndedProgramOnlyTicks : Prop :=
  ∀ s : State, s.Ended → step s = .next { s with dt := if s.dt = 0 then 0 else s.dt - 1 } ∧
    State.Ended { s with dt := if s.dt = 0 then 0 else s.dt - 1 }

/-- R251: a reported condition holds: under any sequence of the operations a host has during a run, every later cycle
reports the same condition with the same record and changes nothing. -/
def Obligations.HeldCoreStaysHeld : Prop :=
  ∀ (s : State) (f : Fault) (ops : List HostOp), s.Holds f → ops.all HostOp.duringRun = true →
    (hostRun ops s).Holds f ∧ hostOp .step (hostRun ops s) = (hostRun ops s, .stepped (some f.diag))

/-! ## Host interface and reset -/

/-- R232, R239, R250: what a host's `step` does. A completed cycle gives its next state and an idle diagnostic output; a
reported cycle leaves the state and drives the record under the condition's code, 1 to 6. -/
def Obligations.HostStepDrivesDiagnostic : Prop :=
  ∀ s : State, (∀ t, step s = .next t → hostOp .step s = (t, .stepped none)) ∧
    ∀ r : Report,
      (step s = .fault (.unknownInstruction r) → hostOp .step s = (s, .stepped (some ⟨1, r⟩))) ∧
      (step s = .fault (.stackOverflow r) → hostOp .step s = (s, .stepped (some ⟨2, r⟩))) ∧
      (step s = .fault (.stackUnderflow r) → hostOp .step s = (s, .stepped (some ⟨3, r⟩))) ∧
      (step s = .fault (.memRange r) → hostOp .step s = (s, .stepped (some ⟨4, r⟩))) ∧
      (step s = .fault (.fetchRange r) → hostOp .step s = (s, .stepped (some ⟨5, r⟩))) ∧
      (step s = .fault (.keyRange r) → hostOp .step s = (s, .stepped (some ⟨6, r⟩)))

/-- R290: reset gives the values of R37, whatever the state before (the values the source does not state are the
spec's decision D29; `draws` is the model's own and not claimed). -/
def Obligations.ResetValues : Prop :=
  ∀ s : State, (hostOp .reset s).2 = .done ∧ let r := (hostOp .reset s).1
    (∀ x, r.getV x = 0) ∧ r.i = 0 ∧ r.pc = 512 ∧ r.sp.val = 0 ∧ (∀ j : Fin 16, r.stack[j] = 0) ∧
    (∀ a, 80 ≤ a → a ≤ 4095 → r.mem.read a = 0) ∧ (∀ a (h : a < Config.font.length), r.mem.read a = Config.font[a]) ∧
    Config.font.length = 80 ∧ (∀ c, c < 2048 → fbCell r.fb c = false) ∧ r.redraw = false ∧
    (∀ k, k < 16 → r.key.getLsbD k = false) ∧ r.dt = 0

/-- R292: with no program loaded the first step reports the word 0 at 512. -/
def Obligations.FirstStepWithoutProgram : Prop :=
  step State.reset = .fault (.unknownInstruction ⟨512, 0, 0⟩)

/-- `load` of an image of at most 3584 bytes places byte `k` at `512 + k` and changes nothing else (R233). R233 defines it
in the state reset leaves; its effect in every state is the model's choice (log entry 6). -/
def Obligations.LoadPlacesImage : Prop :=
  ∀ (image : List Byte) (s : State), image.length ≤ 3584 → ∃ t, hostOp (.load image) s = (t, .done) ∧
    (∀ k (h : k < image.length), t.mem.read (512 + k) = image[k]) ∧ MemSameOutside 512 image.length s t ∧
    Frame (fun _ => False) [.memory] s t ∧ t.pc = s.pc

/-- A longer image is refused whole, with condition 7, `word` 0 and its length, at most 65535, as `aux` (R234, R250, D9).
A load in every state (log entry 6) and a reply without `at_pc` (log entry 17) are the model's choice. -/
def Obligations.LoadTooLongIsRefused : Prop :=
  ∀ (image : List Byte) (s : State), 3584 < image.length →
    ∃ aux : Word, hostOp (.load image) s = (s, .loadTooLong 7 0 aux) ∧ aux.toNat = min image.length 65535

/-- R235: `set_key` sets one key and leaves the others and everything else. -/
def Obligations.SetKeyChangesOneKey : Prop :=
  ∀ (k : BitVec 4) (b : Bool) (s : State), ∃ t, hostOp (.setKey k b) s = (t, .done) ∧
    (∀ j, j < 16 → t.key.getLsbD j = if j = k.toNat then b else s.key.getLsbD j) ∧
    Frame (fun _ => False) [.keypad] s t ∧ t.pc = s.pc

/-- R236, R237: the display operations: a read returns the cell or the flag and changes nothing, a clear clears the
flag alone. -/
def Obligations.DisplayOperations : Prop :=
  ∀ s : State,
    (∀ c : BitVec 11, hostOp (.readFb c) s = (s, .bit ((s.fb[c.toNat / 64]'(by omega)).getLsbD (c.toNat % 64)))) ∧
    hostOp .readRedraw s = (s, .bit s.redraw) ∧ hostOp .clearRedraw s = ({ s with redraw := false }, .done)
end

