-- ==== Sys2Proof/Laws/Decode.lean ====
section
/-!
SUPPORT. The fields of an encoded word are the fields it was encoded from (spec/30_encoding.md R91, R92), and the rows
of the opcode map do not see the operands (R96).
-/

namespace Sys2Proof

/-! ### Bits of an encoded word (R92) -/

theorem getLsbD_encodeA (op : BitVec 4) (nnn : BitVec 12) (k : Nat) :
    (encodeA op nnn).getLsbD k = if k < 12 then nnn.getLsbD k else op.getLsbD (k - 12) :=
  BitVec.getLsbD_append

theorem getLsbD_encodeXI (op x : BitVec 4) (nn : Byte) (k : Nat) :
    (encodeXI op x nn).getLsbD k =
      if k < 8 then nn.getLsbD k else if k - 8 < 4 then x.getLsbD (k - 8) else op.getLsbD (k - 8 - 4) := by
  refine Eq.trans BitVec.getLsbD_append ?_
  rw [BitVec.getLsbD_append]

theorem getLsbD_encodeXYN (op x y n : BitVec 4) (k : Nat) :
    (encodeXYN op x y n).getLsbD k =
      if k < 4 then n.getLsbD k else if k - 4 < 4 then y.getLsbD (k - 4)
      else if k - 4 - 4 < 4 then x.getLsbD (k - 4 - 4) else op.getLsbD (k - 4 - 4 - 4) := by
  refine Eq.trans BitVec.getLsbD_append ?_
  rw [BitVec.getLsbD_append, BitVec.getLsbD_append]

/-! ### Fields of an encoded word (R91) -/

@[simp] theorem fieldOp_encodeA (op : BitVec 4) (nnn : BitVec 12) : fieldOp (encodeA op nnn) = op := by
  apply BitVec.eq_of_getLsbD_eq
  intro k hk
  simp only [fieldOp, BitVec.getLsbD_extractLsb', getLsbD_encodeA]
  interval_cases k <;> simp

@[simp] theorem fieldNNN_encodeA (op : BitVec 4) (nnn : BitVec 12) : fieldNNN (encodeA op nnn) = nnn := by
  apply BitVec.eq_of_getLsbD_eq
  intro k hk
  simp only [fieldNNN, BitVec.getLsbD_extractLsb', getLsbD_encodeA]
  interval_cases k <;> simp

@[simp] theorem fieldOp_encodeXI (op x : BitVec 4) (nn : Byte) : fieldOp (encodeXI op x nn) = op := by
  apply BitVec.eq_of_getLsbD_eq
  intro k hk
  simp only [fieldOp, BitVec.getLsbD_extractLsb', getLsbD_encodeXI]
  interval_cases k <;> simp

@[simp] theorem fieldX_encodeXI (op x : BitVec 4) (nn : Byte) : fieldX (encodeXI op x nn) = x := by
  apply BitVec.eq_of_getLsbD_eq
  intro k hk
  simp only [fieldX, BitVec.getLsbD_extractLsb', getLsbD_encodeXI]
  interval_cases k <;> simp

@[simp] theorem fieldNN_encodeXI (op x : BitVec 4) (nn : Byte) : fieldNN (encodeXI op x nn) = nn := by
  apply BitVec.eq_of_getLsbD_eq
  intro k hk
  simp only [fieldNN, BitVec.getLsbD_extractLsb', getLsbD_encodeXI]
  interval_cases k <;> simp

@[simp] theorem fieldOp_encodeXYN (op x y n : BitVec 4) : fieldOp (encodeXYN op x y n) = op := by
  apply BitVec.eq_of_getLsbD_eq
  intro k hk
  simp only [fieldOp, BitVec.getLsbD_extractLsb', getLsbD_encodeXYN]
  interval_cases k <;> simp

@[simp] theorem fieldX_encodeXYN (op x y n : BitVec 4) : fieldX (encodeXYN op x y n) = x := by
  apply BitVec.eq_of_getLsbD_eq
  intro k hk
  simp only [fieldX, BitVec.getLsbD_extractLsb', getLsbD_encodeXYN]
  interval_cases k <;> simp

@[simp] theorem fieldY_encodeXYN (op x y n : BitVec 4) : fieldY (encodeXYN op x y n) = y := by
  apply BitVec.eq_of_getLsbD_eq
  intro k hk
  simp only [fieldY, BitVec.getLsbD_extractLsb', getLsbD_encodeXYN]
  interval_cases k <;> simp

@[simp] theorem fieldN_encodeXYN (op x y n : BitVec 4) : fieldN (encodeXYN op x y n) = n := by
  apply BitVec.eq_of_getLsbD_eq
  intro k hk
  simp only [fieldN, BitVec.getLsbD_extractLsb', getLsbD_encodeXYN]
  interval_cases k <;> simp

/-! ### Rows of the opcode map (R96) -/

/-- Under the mask `F000` only `OP` is left. -/
theorem and_F000 (w : Word) : w &&& 0xF000 = encodeA (fieldOp w) 0 := by
  apply BitVec.eq_of_getLsbD_eq
  intro k hk
  simp only [BitVec.getLsbD_and, getLsbD_encodeA, fieldOp, BitVec.getLsbD_extractLsb']
  interval_cases k <;> simp

/-- Under the mask `F0FF` only `OP` and `NN` are left. -/
theorem and_F0FF (w : Word) : w &&& 0xF0FF = encodeXI (fieldOp w) 0 (fieldNN w) := by
  apply BitVec.eq_of_getLsbD_eq
  intro k hk
  simp only [BitVec.getLsbD_and, getLsbD_encodeXI, fieldOp, fieldNN, BitVec.getLsbD_extractLsb']
  interval_cases k <;> simp

/-- Under the mask `F00F` only `OP` and `N` are left. -/
theorem and_F00F (w : Word) : w &&& 0xF00F = encodeXYN (fieldOp w) 0 0 (fieldN w) := by
  apply BitVec.eq_of_getLsbD_eq
  intro k hk
  simp only [BitVec.getLsbD_and, getLsbD_encodeXYN, fieldOp, fieldN, BitVec.getLsbD_extractLsb']
  interval_cases k <;> simp

/-- A word selects a row of mask `F000` exactly when its `OP` is the row's (R94). -/
theorem selects_F000 (w : Word) (op : BitVec 4) : selects w (encodeA op 0, 0xF000) ↔ fieldOp w = op := by
  simp only [selects, and_F000]
  exact ⟨fun h => by simpa using congrArg fieldOp h, fun h => h ▸ rfl⟩

/-- A word selects a row of mask `F0FF` exactly when its `OP` and `NN` are the row's (R95). -/
theorem selects_F0FF (w : Word) (op : BitVec 4) (nn : Byte) :
    selects w (encodeXI op 0 nn, 0xF0FF) ↔ fieldOp w = op ∧ fieldNN w = nn := by
  simp only [selects, and_F0FF]
  exact ⟨fun h => ⟨by simpa using congrArg fieldOp h, by simpa using congrArg fieldNN h⟩,
    fun ⟨h, h'⟩ => h ▸ h' ▸ rfl⟩

/-- A word selects a row of mask `F00F` exactly when its `OP` and `N` are the row's (R95). -/
theorem selects_F00F (w : Word) (op n : BitVec 4) :
    selects w (encodeXYN op 0 0 n, 0xF00F) ↔ fieldOp w = op ∧ fieldN w = n := by
  simp only [selects, and_F00F]
  exact ⟨fun h => ⟨by simpa using congrArg fieldOp h, by simpa using congrArg fieldN h⟩,
    fun ⟨h, h'⟩ => h ▸ h' ▸ rfl⟩

/-! ### Well-formedness -/

/-- Every instruction is well-formed: its operands are held at the width of their fields (R93). -/
theorem Instr.wellFormed_all (i : Instr) : i.wellFormed = true := by
  have h : ∀ {w : Nat} (b : BitVec w), decide (b.toNat < 2 ^ w) = true := fun b => by simp [b.isLt]
  cases i <;> simp only [wellFormed, operands, operandsFit, List.all_cons, List.all_nil, h, Bool.and_true]

end Sys2Proof
end

