-- ==== Sys2Proof/Laws/Display.lean ====
section
/-!
SUPPORT. The laws of the framebuffer (spec/43_sprite_display.md R190, R193, R194): what toggling a cell does to every
cell, and what drawing a sprite does to every cell and to the collision flag.
-/

namespace Sys2Proof.Machine

/-- Two framebuffers with the same 2048 cells are equal (R190). -/
theorem framebuffer_ext {f g : Framebuffer} (h : ∀ c, c < Config.fbCells → fbCell f c = fbCell g c) : f = g := by
  apply Vector.ext
  intro y hy
  apply BitVec.eq_of_getLsbD_eq
  intro x hx
  have hc : (x + 64 * y) < Config.fbCells := by unfold Config.fbCells; omega
  have hd : (x + 64 * y) / 64 = y := by omega
  have hm : (x + 64 * y) % 64 = x := by omega
  simpa [fbCell, Config.fbWidth, hd, hm, hy] using h _ hc

/-- Inside the framebuffer a cell is bit `k mod 64` of row `k div 64` (R190). -/
theorem fbCell_inside (f : Framebuffer) {k : Nat} (hk : k / 64 < 32) : fbCell f k = f[k / 64].getLsbD (k % 64) :=
  dif_pos hk

/-- Outside the framebuffer there is no cell. -/
theorem fbCell_outside (f : Framebuffer) {k : Nat} (hk : ¬k / 64 < 32) : fbCell f k = false := dif_neg hk

/-- Toggling a cell inverts it and leaves every other cell (R193). -/
theorem fbCell_fbToggle (f : Framebuffer) {c : Nat} (hc : c < Config.fbCells) (k : Nat) :
    fbCell (fbToggle f c) k = (fbCell f k ^^ decide (k = c)) := by
  have hrow : c / 64 < 32 := by unfold Config.fbCells at hc; omega
  have ht : fbToggle f c = f.set (c / 64) (f[c / 64] ^^^ BitVec.twoPow 64 (c % 64)) := dif_pos hrow
  by_cases hk : k / 64 < 32
  · rw [fbCell_inside _ hk, fbCell_inside _ hk, ht, Vector.getElem_set]
    by_cases hr : c / 64 = k / 64
    · have hc64 : c % 64 < 64 := Nat.mod_lt _ (by decide)
      by_cases hkc : k = c
      · simp [hkc, hc64]
      · have : c % 64 ≠ k % 64 := by omega
        simp [hr, hkc, this]
    · have : k ≠ c := fun e => hr (by rw [e])
      simp [hr, this]
  · have : k ≠ c := fun e => hk (e ▸ hrow)
    simp [fbCell_outside _ hk, this]

@[simp] theorem fbCell_fbClear (c : Nat) : fbCell fbClear c = false := by
  unfold fbCell fbClear
  split <;> simp

theorem spriteCell_lt (x0 y0 r c : Nat) : spriteCell x0 y0 r c < Config.fbCells :=
  Nat.mod_lt _ (by decide)

/-! ### Drawing as toggling a list of distinct cells (R194) -/

/-- The cells under the set bits of one row. -/
def rowCells (x0 y0 r : Nat) (b : Byte) : List Nat :=
  ((List.range 8).filter (spriteBit b)).map (spriteCell x0 y0 r)

/-- The cells under the set bits of the rows from row `r` on. -/
def rowsCells (x0 y0 r : Nat) : List Byte → List Nat
  | [] => []
  | b :: rest => rowCells x0 y0 r b ++ rowsCells x0 y0 (r + 1) rest

theorem drawRow_eq (x0 y0 r : Nat) (b : Byte) (d : Drawing) :
    drawRow x0 y0 r b d = (rowCells x0 y0 r b).foldl (fun d c => drawCell c d) d := by
  simp only [drawRow, rowCells, List.foldl_map, List.foldl_filter]

theorem drawRows_eq (x0 y0 r : Nat) (rows : List Byte) (d : Drawing) :
    drawRows x0 y0 r rows d = (rowsCells x0 y0 r rows).foldl (fun d c => drawCell c d) d := by
  induction rows generalizing r d with
  | nil => rfl
  | cons b rest ih => simp only [drawRows, rowsCells, List.foldl_append, ih, drawRow_eq]

theorem mem_rowCells {x0 y0 r k : Nat} {b : Byte} :
    k ∈ rowCells x0 y0 r b ↔ ∃ c, c < 8 ∧ spriteBit b c = true ∧ spriteCell x0 y0 r c = k := by
  simp [rowCells, and_assoc]

theorem mem_rowsCells {x0 y0 r k : Nat} {rows : List Byte} :
    k ∈ rowsCells x0 y0 r rows ↔
      ∃ j c, ∃ h : j < rows.length, c < 8 ∧ spriteBit rows[j] c = true ∧ spriteCell x0 y0 (r + j) c = k := by
  induction rows generalizing r with
  | nil => simp [rowsCells]
  | cons b rest ih =>
    simp only [rowsCells, List.mem_append, mem_rowCells, ih, List.length_cons]
    constructor
    · rintro (⟨c, hc, hb, hk⟩ | ⟨j, c, hj, hc, hb, hk⟩)
      · exact ⟨0, c, by omega, hc, hb, hk⟩
      · exact ⟨j + 1, c, by omega, hc, hb, by rw [← hk]; congr 1; omega⟩
    · rintro ⟨j, c, hj, hc, hb, hk⟩
      cases j with
      | zero => exact .inl ⟨c, hc, hb, hk⟩
      | succ j => exact .inr ⟨j, c, by omega, hc, hb, by rw [← hk]; congr 1; omega⟩

/-- Two cells of one draw, at most 32 rows apart, are the same cell only if they are the same pixel of the sprite (R194
(a)). -/
theorem spriteCell_inj {x0 y0 r r' c c' : Nat} (hc : c < 8) (hc' : c' < 8) (hr : r < r' + 31) (hr' : r' < r + 31)
    (h : spriteCell x0 y0 r c = spriteCell x0 y0 r' c') : r = r' ∧ c = c' := by
  simp only [spriteCell, Config.fbWidth, Config.fbCells] at h
  omega

theorem nodup_rowCells (x0 y0 r : Nat) (b : Byte) : (rowCells x0 y0 r b).Nodup := by
  refine List.Nodup.map_on (fun c hc c' hc' h => ?_) (List.nodup_range.filter _)
  simp only [List.mem_filter, List.mem_range] at hc hc'
  exact (spriteCell_inj hc.1 hc'.1 (by omega) (by omega) h).2

/-- Within one draw no cell is visited twice (R194 (a)). -/
theorem nodup_rowsCells (x0 y0 r : Nat) {rows : List Byte} (h : rows.length ≤ 30) :
    (rowsCells x0 y0 r rows).Nodup := by
  induction rows generalizing r with
  | nil => simp [rowsCells]
  | cons b rest ih =>
    simp only [List.length_cons] at h
    refine List.Nodup.append (nodup_rowCells ..) (ih (r + 1) (by omega)) fun k hk hk' => ?_
    obtain ⟨c, hc, -, e⟩ := mem_rowCells.mp hk
    obtain ⟨j, c', hj, hc', -, e'⟩ := mem_rowsCells.mp hk'
    have := spriteCell_inj hc hc' (by omega) (by omega) (e.trans e'.symm)
    omega

theorem lt_of_mem_rowsCells {x0 y0 r k : Nat} {rows : List Byte} (h : k ∈ rowsCells x0 y0 r rows) :
    k < Config.fbCells := by
  obtain ⟨j, c, -, -, -, e⟩ := mem_rowsCells.mp h
  exact e ▸ spriteCell_lt ..

/-- Toggling distinct cells inverts exactly those, and collides exactly when one of them was set (R193, R194). -/
theorem foldl_drawCell {cells : List Nat} (hn : cells.Nodup) (hlt : ∀ k ∈ cells, k < Config.fbCells) (d : Drawing) :
    (∀ k, fbCell (cells.foldl (fun d c => drawCell c d) d).fb k = (fbCell d.fb k ^^ decide (k ∈ cells))) ∧
    ((cells.foldl (fun d c => drawCell c d) d).collision = true ↔
      d.collision = true ∨ ∃ k ∈ cells, fbCell d.fb k = true) := by
  induction cells generalizing d with
  | nil => simp
  | cons a rest ih =>
    obtain ⟨ha, hrest⟩ := List.nodup_cons.mp hn
    have hcell := fun k => fbCell_fbToggle d.fb (hlt a (by simp)) k
    obtain ⟨hfb, hcol⟩ := ih hrest (fun k hk => hlt k (by simp [hk])) (drawCell a d)
    simp only [List.foldl_cons]
    constructor
    · intro k
      rw [hfb k]
      simp only [drawCell, hcell]
      by_cases hk : k = a
      · subst hk; simp [ha]
      · simp [hk]
    · rw [hcol]
      simp only [drawCell, hcell, Bool.or_eq_true, List.mem_cons]
      constructor
      · rintro ((h | h) | ⟨k, hk, h⟩)
        · exact .inl h
        · exact .inr ⟨a, .inl rfl, h⟩
        · have : k ≠ a := fun e => ha (e ▸ hk)
          exact .inr ⟨k, .inr hk, by simpa [this] using h⟩
      · rintro (h | ⟨k, rfl | hk, h⟩)
        · exact .inl (.inl h)
        · exact .inl (.inr h)
        · have : k ≠ a := fun e => ha (e ▸ hk)
          exact .inr ⟨k, hk, by simpa [this] using h⟩

/-- The cells a draw toggles are those its sprite covers. -/
theorem mem_rowsCells_iff_covers {x0 y0 k : Nat} {rows : List Byte} :
    k ∈ rowsCells x0 y0 0 rows ↔ spriteCovers x0 y0 rows k := by
  rw [mem_rowsCells]
  simp only [spriteCovers, spriteBit, spriteCell, Config.fbWidth, Config.fbCells, Nat.zero_add,
    eq_comm (a := k)]

end Sys2Proof.Machine
end

