-- ==== Sys2Proof/Laws/Memory.lean ====
section
/-!
SUPPORT. The laws of memory (spec/20_memory.md R63): a read after a write, and that every memory operation keeps the
canonical form. The read laws hold of every list of cells, canonical or not.
-/

namespace Sys2Proof.Machine.Memory

/-! ### Reading -/

theorem read_eraseCell_same (m : Memory) (a : Nat) : (m.eraseCell a).read a = unlisted a := by
  induction m with
  | nil => rfl
  | cons c rest ih =>
    obtain ⟨b, w⟩ := c
    by_cases h : b = a
    · simpa [eraseCell, h] using ih
    · simpa [eraseCell, h, read] using ih

theorem read_eraseCell_other (m : Memory) {a b : Nat} (h : b ≠ a) : (m.eraseCell a).read b = m.read b := by
  induction m with
  | nil => rfl
  | cons c rest ih =>
    obtain ⟨k, w⟩ := c
    by_cases hk : k = a
    · subst hk
      simpa [eraseCell, List.filter_cons, read, Ne.symm h] using ih
    · by_cases hb : k = b
      · subst hb
        simp [eraseCell, hk, read]
      · simpa [eraseCell, hk, read, hb] using ih

theorem read_insertCell_other (m : Memory) {a b : Nat} (v : Byte) (h : b ≠ a) :
    (m.insertCell a v).read b = m.read b := by
  induction m with
  | nil => simp [insertCell, read, Ne.symm h]
  | cons c rest ih =>
    obtain ⟨k, w⟩ := c
    simp only [insertCell]
    split
    · simp [read, Ne.symm h]
    · simp [read, ih]

theorem read_insertCell_same (m : Memory) (a : Nat) (v : Byte) (h : ∀ c ∈ m, c.1 ≠ a) :
    (m.insertCell a v).read a = v := by
  induction m with
  | nil => simp [insertCell, read]
  | cons c rest ih =>
    obtain ⟨k, w⟩ := c
    have hk : k ≠ a := h (k, w) (by simp)
    simp only [insertCell]
    split
    · simp [read]
    · simpa [read, hk] using ih fun c hc => h c (by simp [hc])

theorem mem_eraseCell {m : Memory} {a : Nat} {c : Host.Cell} : c ∈ m.eraseCell a ↔ c ∈ m ∧ c.1 ≠ a := by
  simp [eraseCell]

/-- `MemWrite` changes the byte at its address and no other (R63). -/
theorem read_write (m : Memory) (a b : Nat) (v : Byte) :
    (m.write a v).read b = if b = a then v else m.read b := by
  unfold write
  by_cases h : b = a
  · subst h
    by_cases hv : v = unlisted b
    · simp [hv, read_eraseCell_same]
    · simp [hv, read_insertCell_same _ _ _ fun c hc => (mem_eraseCell.mp hc).2]
  · by_cases hv : v = unlisted a
    · simp [hv, h, read_eraseCell_other _ h]
    · simp [hv, h, read_insertCell_other _ _ h, read_eraseCell_other _ h]

@[simp] theorem read_write_same (m : Memory) (a : Nat) (v : Byte) : (m.write a v).read a = v := by
  simp [read_write]

theorem read_write_other (m : Memory) {a b : Nat} (h : b ≠ a) (v : Byte) : (m.write a v).read b = m.read b := by
  simp [read_write, h]

/-- After a multi-byte store: inside, the bytes stored in ascending order; outside, what was there (R64, R66). -/
theorem read_writeBytes (m : Memory) (a b : Nat) (bs : List Byte) :
    (m.writeBytes a bs).read b = if h : a ≤ b ∧ b < a + bs.length then bs[b - a]'(by omega) else m.read b := by
  induction bs generalizing m a with
  | nil => simp [writeBytes]
  | cons v rest ih =>
    simp only [writeBytes, ih, read_write, List.length_cons]
    by_cases hb : b = a
    · subst hb
      simp
    · by_cases hin : a + 1 ≤ b ∧ b < a + 1 + rest.length
      · have h' : a ≤ b ∧ b < a + (rest.length + 1) := by omega
        obtain ⟨k, hk⟩ : ∃ k, b - a = k + 1 := ⟨b - a - 1, by omega⟩
        have hk' : b - (a + 1) = k := by omega
        simp [hin, h', hk, hk']
      · have h' : ¬(a ≤ b ∧ b < a + (rest.length + 1)) := by omega
        rw [dif_neg hin, dif_neg h', if_neg hb]

theorem read_writeBytes_outside (m : Memory) (a b : Nat) (bs : List Byte) (h : ¬(a ≤ b ∧ b < a + bs.length)) :
    (m.writeBytes a bs).read b = m.read b := by
  simp [read_writeBytes, h]

@[simp] theorem length_readBytes (m : Memory) (a n : Nat) : (m.readBytes a n).length = n := by
  simp [readBytes]

@[simp] theorem getElem_readBytes (m : Memory) (a n j : Nat) (h : j < (m.readBytes a n).length) :
    (m.readBytes a n)[j] = m.read (a + j) := by
  simp [readBytes]

/-! ### The canonical form -/

theorem rising_iff (m : Memory) : m.rising = true ↔ m.Pairwise fun c d => c.1 < d.1 := by
  induction m with
  | nil => simp [rising]
  | cons c rest ih => simp [rising, ih]

theorem wf_iff (m : Memory) :
    m.wf = true ↔ (m.Pairwise fun c d => c.1 < d.1) ∧ ∀ c ∈ m, c.1 < Config.memSize ∧ c.2 ≠ unlisted c.1 := by
  simp [wf, rising_iff, List.all_eq_true]

theorem mem_insertCell {m : Memory} {a : Nat} {v : Byte} {c : Host.Cell} :
    c ∈ m.insertCell a v ↔ c = (a, v) ∨ c ∈ m := by
  induction m with
  | nil => simp [insertCell]
  | cons d rest ih =>
    obtain ⟨b, w⟩ := d
    simp only [insertCell]
    split
    · simp
    · simp [ih]; tauto

theorem rising_insertCell {m : Memory} {a : Nat} (v : Byte) (hm : m.Pairwise fun c d => c.1 < d.1)
    (ha : ∀ c ∈ m, c.1 ≠ a) : (m.insertCell a v).Pairwise fun c d => c.1 < d.1 := by
  induction m with
  | nil => simp [insertCell]
  | cons d rest ih =>
    obtain ⟨b, w⟩ := d
    have hb : b ≠ a := ha (b, w) (by simp)
    obtain ⟨hlt, hrest⟩ := List.pairwise_cons.mp hm
    simp only [insertCell]
    split
    · rename_i hab
      refine List.pairwise_cons.mpr ⟨fun c hc => ?_, hm⟩
      rcases List.mem_cons.mp hc with rfl | hc
      · exact hab
      · exact Nat.lt_trans hab (hlt c hc)
    · rename_i hab
      refine List.pairwise_cons.mpr ⟨fun c hc => ?_, ih hrest fun c hc => ha c (by simp [hc])⟩
      rcases mem_insertCell.mp hc with rfl | hc
      · exact Nat.lt_of_le_of_ne (Nat.le_of_not_lt hab) hb
      · exact hlt c hc

/-- A write inside memory keeps the canonical form. -/
theorem wf_write {m : Memory} (hm : m.wf = true) {a : Nat} (ha : a < Config.memSize) (v : Byte) :
    (m.write a v).wf = true := by
  obtain ⟨hr, hc⟩ := (wf_iff m).mp hm
  have her : (m.eraseCell a).Pairwise fun c d => c.1 < d.1 := hr.filter _
  have hec : ∀ c ∈ m.eraseCell a, c.1 < Config.memSize ∧ c.2 ≠ unlisted c.1 :=
    fun c h => hc c (mem_eraseCell.mp h).1
  rw [wf_iff]
  unfold write
  split
  · exact ⟨her, hec⟩
  · rename_i hv
    refine ⟨rising_insertCell v her fun c h => (mem_eraseCell.mp h).2, fun c h => ?_⟩
    rcases mem_insertCell.mp h with rfl | h
    · exact ⟨ha, hv⟩
    · exact hec c h

/-- A multi-byte store inside memory keeps the canonical form. -/
theorem wf_writeBytes {m : Memory} (hm : m.wf = true) {a : Nat} (bs : List Byte)
    (ha : a + bs.length ≤ Config.memSize) : (m.writeBytes a bs).wf = true := by
  induction bs generalizing m a with
  | nil => exact hm
  | cons b rest ih =>
    simp only [List.length_cons] at ha
    exact ih (wf_write hm (by omega) b) (by omega)

/-- Storing an instruction word inside memory keeps the canonical form. -/
theorem wf_placeWord {m : Memory} (hm : m.wf = true) {a : Nat} (ha : a + 2 ≤ Config.memSize) (w : Word) :
    (m.placeWord a w).wf = true :=
  wf_writeBytes hm _ (by simpa using ha)

/-- Memory right after reset is canonical. -/
theorem wf_reset : State.reset.mem.wf = true := rfl

/-- Memory right after reset reads as the font and zeros (R37). -/
@[simp] theorem read_reset (a : Nat) : State.reset.mem.read a = unlisted a := rfl

/-- Above the font an unlisted address reads as 0 (R37). -/
theorem unlisted_above_font {a : Nat} (h : 80 ≤ a) : unlisted a = 0 := by
  have : Config.font.length = 80 := rfl
  simp [unlisted, this, h]

end Sys2Proof.Machine.Memory
end

