-- ==== Sys2Proof/Laws/State.lean ====
section
/-!
SUPPORT. What each update of the state does to each field, true by definition and in the simp set, so that no proof
unfolds a record update; then reading a register after each update.
-/

namespace Sys2Proof.Machine.State

variable (s : State)

/-! ### `setV` -/

@[simp] theorem setV_v (x : BitVec 4) (b : Byte) : (s.setV x b).v = s.v.set x.toNat b x.isLt := rfl
@[simp] theorem setV_i (x : BitVec 4) (b : Byte) : (s.setV x b).i = s.i := rfl
@[simp] theorem setV_pc (x : BitVec 4) (b : Byte) : (s.setV x b).pc = s.pc := rfl
@[simp] theorem setV_stack (x : BitVec 4) (b : Byte) : (s.setV x b).stack = s.stack := rfl
@[simp] theorem setV_sp (x : BitVec 4) (b : Byte) : (s.setV x b).sp = s.sp := rfl
@[simp] theorem setV_mem (x : BitVec 4) (b : Byte) : (s.setV x b).mem = s.mem := rfl
@[simp] theorem setV_fb (x : BitVec 4) (b : Byte) : (s.setV x b).fb = s.fb := rfl
@[simp] theorem setV_redraw (x : BitVec 4) (b : Byte) : (s.setV x b).redraw = s.redraw := rfl
@[simp] theorem setV_key (x : BitVec 4) (b : Byte) : (s.setV x b).key = s.key := rfl
@[simp] theorem setV_dt (x : BitVec 4) (b : Byte) : (s.setV x b).dt = s.dt := rfl
@[simp] theorem setV_draws (x : BitVec 4) (b : Byte) : (s.setV x b).draws = s.draws := rfl

/-! ### `setFlag` -/

@[simp] theorem setFlag_v (b : Byte) : (s.setFlag b).v = s.v.set 15 b := rfl
@[simp] theorem setFlag_i (b : Byte) : (s.setFlag b).i = s.i := rfl
@[simp] theorem setFlag_pc (b : Byte) : (s.setFlag b).pc = s.pc := rfl
@[simp] theorem setFlag_stack (b : Byte) : (s.setFlag b).stack = s.stack := rfl
@[simp] theorem setFlag_sp (b : Byte) : (s.setFlag b).sp = s.sp := rfl
@[simp] theorem setFlag_mem (b : Byte) : (s.setFlag b).mem = s.mem := rfl
@[simp] theorem setFlag_fb (b : Byte) : (s.setFlag b).fb = s.fb := rfl
@[simp] theorem setFlag_redraw (b : Byte) : (s.setFlag b).redraw = s.redraw := rfl
@[simp] theorem setFlag_key (b : Byte) : (s.setFlag b).key = s.key := rfl
@[simp] theorem setFlag_dt (b : Byte) : (s.setFlag b).dt = s.dt := rfl
@[simp] theorem setFlag_draws (b : Byte) : (s.setFlag b).draws = s.draws := rfl

/-! ### `advance` -/

@[simp] theorem advance_v : (s.advance).v = s.v := rfl
@[simp] theorem advance_i : (s.advance).i = s.i := rfl
@[simp] theorem advance_pc : (s.advance).pc = s.pc + 2 := rfl
@[simp] theorem advance_stack : (s.advance).stack = s.stack := rfl
@[simp] theorem advance_sp : (s.advance).sp = s.sp := rfl
@[simp] theorem advance_mem : (s.advance).mem = s.mem := rfl
@[simp] theorem advance_fb : (s.advance).fb = s.fb := rfl
@[simp] theorem advance_redraw : (s.advance).redraw = s.redraw := rfl
@[simp] theorem advance_key : (s.advance).key = s.key := rfl
@[simp] theorem advance_dt : (s.advance).dt = s.dt := rfl
@[simp] theorem advance_draws : (s.advance).draws = s.draws := rfl

/-! ### `skipIf` -/

@[simp] theorem skipIf_v (c : Bool) : (s.skipIf c).v = s.v := rfl
@[simp] theorem skipIf_i (c : Bool) : (s.skipIf c).i = s.i := rfl
@[simp] theorem skipIf_pc (c : Bool) : (s.skipIf c).pc = if c then s.pc + 4 else s.pc + 2 := rfl
@[simp] theorem skipIf_stack (c : Bool) : (s.skipIf c).stack = s.stack := rfl
@[simp] theorem skipIf_sp (c : Bool) : (s.skipIf c).sp = s.sp := rfl
@[simp] theorem skipIf_mem (c : Bool) : (s.skipIf c).mem = s.mem := rfl
@[simp] theorem skipIf_fb (c : Bool) : (s.skipIf c).fb = s.fb := rfl
@[simp] theorem skipIf_redraw (c : Bool) : (s.skipIf c).redraw = s.redraw := rfl
@[simp] theorem skipIf_key (c : Bool) : (s.skipIf c).key = s.key := rfl
@[simp] theorem skipIf_dt (c : Bool) : (s.skipIf c).dt = s.dt := rfl
@[simp] theorem skipIf_draws (c : Bool) : (s.skipIf c).draws = s.draws := rfl

/-! ### `push` -/

@[simp] theorem push_v (h : s.sp.val < 16) : (s.push h).v = s.v := rfl
@[simp] theorem push_i (h : s.sp.val < 16) : (s.push h).i = s.i := rfl
@[simp] theorem push_pc (h : s.sp.val < 16) : (s.push h).pc = s.pc := rfl
@[simp] theorem push_stack (h : s.sp.val < 16) : (s.push h).stack = s.stack.set s.sp.val s.pc h := rfl
@[simp] theorem push_sp (h : s.sp.val < 16) : (s.push h).sp = ⟨s.sp.val + 1, by omega⟩ := rfl
@[simp] theorem push_mem (h : s.sp.val < 16) : (s.push h).mem = s.mem := rfl
@[simp] theorem push_fb (h : s.sp.val < 16) : (s.push h).fb = s.fb := rfl
@[simp] theorem push_redraw (h : s.sp.val < 16) : (s.push h).redraw = s.redraw := rfl
@[simp] theorem push_key (h : s.sp.val < 16) : (s.push h).key = s.key := rfl
@[simp] theorem push_dt (h : s.sp.val < 16) : (s.push h).dt = s.dt := rfl
@[simp] theorem push_draws (h : s.sp.val < 16) : (s.push h).draws = s.draws := rfl

/-! ### `pop` -/

@[simp] theorem pop_v : (s.pop).v = s.v := rfl
@[simp] theorem pop_i : (s.pop).i = s.i := rfl
@[simp] theorem pop_pc : (s.pop).pc = s.pc := rfl
@[simp] theorem pop_stack : (s.pop).stack = s.stack := rfl
@[simp] theorem pop_sp : (s.pop).sp = ⟨s.sp.val - 1, by omega⟩ := rfl
@[simp] theorem pop_mem : (s.pop).mem = s.mem := rfl
@[simp] theorem pop_fb : (s.pop).fb = s.fb := rfl
@[simp] theorem pop_redraw : (s.pop).redraw = s.redraw := rfl
@[simp] theorem pop_key : (s.pop).key = s.key := rfl
@[simp] theorem pop_dt : (s.pop).dt = s.dt := rfl
@[simp] theorem pop_draws : (s.pop).draws = s.draws := rfl

/-! ### `tick` -/

@[simp] theorem tick_v : (s.tick).v = s.v := rfl
@[simp] theorem tick_i : (s.tick).i = s.i := rfl
@[simp] theorem tick_pc : (s.tick).pc = s.pc := rfl
@[simp] theorem tick_stack : (s.tick).stack = s.stack := rfl
@[simp] theorem tick_sp : (s.tick).sp = s.sp := rfl
@[simp] theorem tick_mem : (s.tick).mem = s.mem := rfl
@[simp] theorem tick_fb : (s.tick).fb = s.fb := rfl
@[simp] theorem tick_redraw : (s.tick).redraw = s.redraw := rfl
@[simp] theorem tick_key : (s.tick).key = s.key := rfl
@[simp] theorem tick_dt : (s.tick).dt = if s.dt.toNat > 0 then s.dt - 1 else s.dt := rfl
@[simp] theorem tick_draws : (s.tick).draws = s.draws := rfl

/-! ### Reading a register after an update -/

/-- Reading a register after writing one: the value written, or what was there (R21). -/
theorem getV_setV (x z : BitVec 4) (b : Byte) : (s.setV x b).getV z = if z = x then b else s.getV z := by
  simp only [getV, setV_v, Vector.getElem_set]
  by_cases h : z = x
  · simp [h]
  · have : x.toNat ≠ z.toNat := fun e => h (BitVec.eq_of_toNat_eq e.symm)
    simp [h, this]

@[simp] theorem getV_setV_same (x : BitVec 4) (b : Byte) : (s.setV x b).getV x = b := by
  simp [getV_setV]

theorem getV_setV_other {x z : BitVec 4} (h : z ≠ x) (b : Byte) : (s.setV x b).getV z = s.getV z := by
  simp [getV_setV, h]

/-- Reading a register after writing `VF` (R22). -/
theorem getV_setFlag (z : BitVec 4) (b : Byte) : (s.setFlag b).getV z = if z = 15#4 then b else s.getV z :=
  getV_setV s 15#4 z b

@[simp] theorem getV_setFlag_vf (b : Byte) : (s.setFlag b).getV 15#4 = b := by simp [getV_setFlag]

@[simp] theorem getV_advance (z : BitVec 4) : s.advance.getV z = s.getV z := rfl
@[simp] theorem getV_skipIf (z : BitVec 4) (c : Bool) : (s.skipIf c).getV z = s.getV z := rfl
@[simp] theorem getV_push (z : BitVec 4) (h : s.sp.val < 16) : (s.push h).getV z = s.getV z := rfl
@[simp] theorem getV_pop (z : BitVec 4) : s.pop.getV z = s.getV z := rfl
@[simp] theorem getV_tick (z : BitVec 4) : s.tick.getV z = s.getV z := rfl

/-- A register's value depends on the register file alone. -/
theorem getV_congr {s t : State} (h : t.v = s.v) (z : BitVec 4) : t.getV z = s.getV z := by
  unfold getV; simp [h]

end Sys2Proof.Machine.State
end

