-- ==== Sys2Proof/Laws/Ops.lean ====
section
/-!
SUPPORT. One law per shared operation: what each can answer, stated once, for proofs to cite instead of unfolding it.
The last ones say once what a step can do.
-/

namespace Sys2Proof.Machine

/-! ### Words -/

/-- The number of a fetched word: `256·hi + lo` (R64). -/
theorem toNat_wordOfBytes (hi lo : Byte) : (wordOfBytes hi lo).toNat = 256 * hi.toNat + lo.toNat := by
  have := lo.isLt
  simp only [wordOfBytes, BitVec.toNat_append, Nat.shiftLeft_eq]
  rw [← Nat.shiftLeft_eq, ← Nat.shiftLeft_add_eq_or_of_lt (by omega), Nat.shiftLeft_eq]
  omega

/-- The two bytes of a word, put together again, are the word (R64). -/
theorem wordOfBytes_split (w : Word) : wordOfBytes (w.extractLsb' 8 8) (w.extractLsb' 0 8) = w := by
  apply BitVec.eq_of_getLsbD_eq
  intro k hk
  simp only [wordOfBytes, BitVec.getLsbD_append, BitVec.getLsbD_extractLsb']
  by_cases h : k < 8
  · simp [h]
  · have : k - 8 < 8 := by omega
    have e : 8 + (k - 8) = k := by omega
    simp [h, this, e]

/-- A word placed in memory is what the fetch reads there (R64, R74). -/
theorem fetchWord_placeWord (s : State) (w : Word) :
    ({ s with mem := s.mem.placeWord s.pc.toNat w } : State).fetchWord = w := by
  simp [State.fetchWord, Memory.placeWord, Memory.read_writeBytes, wordOfBytes_split]

@[simp] theorem toNat_addressOperand (nnn : BitVec 12) : (addressOperand nnn).toNat = nnn.toNat := by
  have := nnn.isLt
  simp only [addressOperand, BitVec.toNat_setWidth]
  omega

/-! ### Range checks and reports -/

/-- The range check fails exactly when a byte is touched and the last one lies above 4095 (R69). -/
theorem pastMemory_iff (i0 : Word) (len : Nat) : pastMemory i0 len = true ↔ 1 ≤ len ∧ 4096 < i0.toNat + len := by
  unfold pastMemory effectiveAddress
  rw [decide_eq_true_iff]
  omega

/-- Inside memory, a data access gives its handler's next state (R69). -/
theorem accessing_inside {len : Nat} {s t : State} (h : len = 0 ∨ s.i.toNat + len ≤ 4096) :
    accessing len s t = .next t := by
  have : ¬pastMemory s.i len = true := by rw [pastMemory_iff]; omega
  simp [accessing, this]

/-- Past the end of memory, a data access reports `MEM_RANGE` with the value of `I` (R255). -/
theorem accessing_outside {len : Nat} {s t : State} (h : 1 ≤ len ∧ 4096 < s.i.toNat + len) :
    accessing len s t = .fault (.memRange ⟨s.pc, s.fetchWord, s.i⟩) := by
  simp [accessing, (pastMemory_iff s.i len).mpr h, report]

/-- If a data access answers a next state, the range was inside memory and the state is the handler's (R69). -/
theorem accessing_next {len : Nat} {s t u : State} (h : accessing len s t = .next u) :
    (len = 0 ∨ s.i.toNat + len ≤ 4096) ∧ u = t := by
  unfold accessing report at h
  split at h
  · cases h
  · rename_i hp
    rw [pastMemory_iff] at hp
    injection h with h
    exact ⟨by omega, h.symm⟩

/-! ### Flags -/

@[simp] theorem flagByte_true : flagByte true = 1 := rfl
@[simp] theorem flagByte_false : flagByte false = 0 := rfl

/-- A flag is 0 or 1 (R22). -/
theorem flagByte_cases (b : Bool) : flagByte b = 0 ∨ flagByte b = 1 := by cases b <;> simp

theorem toNat_flagByte (b : Bool) : (flagByte b).toNat = if b then 1 else 0 := by cases b <;> rfl

/-! ### Operand forms -/

/-- A register value of 15 or less names the key of that number (R200). -/
theorem keyIndex_inside {x0 : Byte} (h : x0.toNat ≤ 15) : keyIndex x0 = some (x0.setWidth 4) := by
  simp [keyIndex]; omega

/-- A register value above 15 names no key (R200). -/
theorem keyIndex_outside {x0 : Byte} (h : 15 < x0.toNat) : keyIndex x0 = none := by simp [keyIndex, h]

theorem toNat_keyIndex {x0 : Byte} (h : x0.toNat ≤ 15) : (x0.setWidth 4).toNat = x0.toNat := by
  simp only [BitVec.toNat_setWidth]; omega

/-- What an ascending scan keeps: nothing if it met no held key, else the last one it met (R202). -/
theorem scan_spec (held : Nat → Bool) (n : Nat) :
    match (List.range n).foldl (fun last k => if held k then some k else last) none with
    | none => ∀ k, k < n → held k = false
    | some k => k < n ∧ held k = true ∧ ∀ j, j < n → held j = true → j ≤ k := by
  induction n with
  | zero => simp
  | succ n ih =>
    rw [List.range_succ, List.foldl_append]
    simp only [List.foldl_cons, List.foldl_nil]
    by_cases hn : held n = true
    · simp only [hn, if_true]
      exact ⟨by omega, trivial, fun j hj _ => by omega⟩
    · simp only [hn]
      revert ih
      cases (List.range n).foldl (fun last k => if held k then some k else last) none with
      | none =>
        intro ih k hk
        by_cases e : k = n
        · simpa [e] using hn
        · exact ih k (by omega)
      | some k =>
        rintro ⟨hk, hheld, hmax⟩
        refine ⟨by omega, hheld, fun j hj hjh => ?_⟩
        by_cases e : j = n
        · exact absurd (e ▸ hjh) hn
        · exact hmax j (by omega) hjh

/-- No key held: the scan of `FX0A` finds none (R202). -/
theorem lastHeldKey_none {s : State} (h : s.lastHeldKey = none) : ∀ k, k < 16 → s.key.getLsbD k = false := by
  have := scan_spec (fun k => s.key.getLsbD k) 16
  unfold State.lastHeldKey at h
  rw [h] at this
  exact this

/-- The scan of `FX0A` finds the highest held key (R202). -/
theorem lastHeldKey_some {s : State} {k : Nat} (h : s.lastHeldKey = some k) :
    k < 16 ∧ s.key.getLsbD k = true ∧ ∀ j, j < 16 → s.key.getLsbD j = true → j ≤ k := by
  have := scan_spec (fun k => s.key.getLsbD k) 16
  unfold State.lastHeldKey at h
  rw [h] at this
  exact this

@[simp] theorem length_regsUpTo (s : State) (x : BitVec 4) : (s.regsUpTo x).length = x.toNat + 1 := by
  have := x.isLt
  simp [State.regsUpTo]; omega

@[simp] theorem length_decimalDigits (x0 : Byte) : (decimalDigits x0).length = 3 := rfl

/-- The `j`-th byte `FX55` stores is `V[j]` (R209). -/
theorem getElem_regsUpTo (s : State) (x z : BitVec 4) (h : z.toNat < (s.regsUpTo x).length) :
    (s.regsUpTo x)[z.toNat] = s.getV z := by
  simp [State.regsUpTo, State.getV]

/-- What `FX65` leaves in a register: the byte at `I + z` if `z ≤ X`, else what was there (R210). -/
theorem getV_regsLoaded (s t : State) (x z : BitVec 4) (h : t.v = s.regsLoaded x) :
    t.getV z = if z.toNat ≤ x.toNat then s.mem.read (s.i.toNat + z.toNat) else s.getV z := by
  simp [State.getV, h, State.regsLoaded, effectiveAddress]

/-! ### The tick -/

/-- The tick saturates at 0 (R127). -/
theorem tick_toNat (s : State) : s.tick.dt.toNat = s.dt.toNat - 1 := by
  have := s.dt.isLt
  rw [State.tick_dt]
  split
  · have : (1 : Byte).toNat = 1 := rfl
    rw [BitVec.toNat_sub, this]
    omega
  · omega

/-! ### The cycle -/

/-- A cycle from an in-range `pc` whose word is recognised is the handler and then the tick (R120). -/
theorem step_of_decode {s : State} {i : Instr} (hpc : s.pc.toNat ≤ 4094) (hd : decode s.fetchWord = .instr i) :
    step s = completeCycle (exec i s) := by
  have : ¬s.pc.toNat > 4094 := by omega
  simp [step, State.fetch, this, hd]

/-- What a completed cycle is: an in-range fetch, a recognised word, a handler that answered, and the tick (R120). -/
theorem step_next {s t : State} (h : step s = .next t) :
    ∃ i u, s.pc.toNat ≤ 4094 ∧ decode s.fetchWord = .instr i ∧ exec i s = .next u ∧ t = u.tick := by
  unfold step State.fetch at h
  by_cases hpc : s.pc.toNat > 4094
  · simp [hpc] at h
  · rw [if_neg hpc] at h
    cases hd : decode s.fetchWord with
    | unknown w => simp [hd] at h
    | instr i =>
      simp only [hd] at h
      cases hx : exec i s with
      | next u =>
        rw [hx] at h
        injection h with h
        exact ⟨i, u, by omega, rfl, hx, h.symm⟩
      | fault f => simp [hx, completeCycle] at h
      | refused r => simp [hx, completeCycle] at h

/-- What a reported cycle is: a fetch out of range, an unrecognised word, or a handler's own condition (R120). -/
theorem step_fault {s : State} {f : Fault} (h : step s = .fault f) :
    (4094 < s.pc.toNat ∧ f = .fetchRange ⟨s.pc, 0, 0⟩) ∨
    (s.pc.toNat ≤ 4094 ∧ ∃ w, decode s.fetchWord = .unknown w ∧ f = .unknownInstruction ⟨s.pc, w, 0⟩) ∨
    (s.pc.toNat ≤ 4094 ∧ ∃ i, decode s.fetchWord = .instr i ∧ exec i s = .fault f) := by
  unfold step State.fetch at h
  by_cases hpc : s.pc.toNat > 4094
  · rw [if_pos hpc] at h
    injection h with h
    exact .inl ⟨hpc, h.symm⟩
  · rw [if_neg hpc] at h
    cases hd : decode s.fetchWord with
    | unknown w =>
      simp only [hd] at h
      injection h with h
      exact .inr (.inl ⟨by omega, w, rfl, h.symm⟩)
    | instr i =>
      simp only [hd] at h
      cases hx : exec i s with
      | next u => simp [hx, completeCycle] at h
      | fault g =>
        rw [hx] at h
        injection h with h
        exact .inr (.inr ⟨by omega, i, rfl, h ▸ hx⟩)
      | refused r => simp [hx, completeCycle] at h

end Sys2Proof.Machine
end

