-- ==== Sys2Proof/Laws/Handlers.lean ====
section
/-!
SUPPORT. One law per shared handler shape: what a register write, a flagged register write, a skip and a draw can
answer, each with its frame.
-/

namespace Sys2Proof.Machine

/-- Nothing changed but, perhaps, `pc`. -/
theorem frame_pc (s : State) (pc : Word) : Frame (fun _ => False) [] s { s with pc := pc } :=
  ⟨fun _ _ => rfl, fun p _ => by cases p <;> simp [Keeps]⟩

/-- A frame may be weakened to more registers and more parts. -/
theorem Frame.mono {regs regs' : BitVec 4 → Prop} {parts parts' : List Part} {s t : State} (h : Frame regs parts s t)
    (hr : ∀ z, regs z → regs' z) (hp : ∀ p ∈ parts, p ∈ parts') : Frame regs' parts' s t :=
  ⟨fun z hz => h.1 z fun hc => hz (hr z hc), fun p hn => h.2 p fun hc => hn (hp p hc)⟩

/-- What a handler that writes one register answers (R126). -/
theorem writeReg_next {x : BitVec 4} {result : Byte} {s t : State} (h : writeReg x result s = .next t) :
    t.getV x = result ∧ t.pc = s.pc + 2 ∧ Frame (· = x) [] s t := by
  injection h with h
  subst h
  refine ⟨by simp, rfl, fun z hz => ?_, fun p _ => by cases p <;> simp [Keeps]⟩
  rw [State.getV_advance, State.getV_setV_other s hz]

/-- What a handler that writes a register and the flag answers: the flag is what remains in `VF` (R126). -/
theorem writeRegFlag_next {x : BitVec 4} {result flag : Byte} {s t : State}
    (h : writeRegFlag x result flag s = .next t) :
    (x ≠ 15#4 → t.getV x = result) ∧ t.getV 15#4 = flag ∧ t.pc = s.pc + 2 ∧
      Frame (fun z => z = x ∨ z = 15#4) [] s t := by
  injection h with h
  subst h
  refine ⟨fun hx => ?_, by simp, rfl, fun z hz => ?_, fun p _ => by cases p <;> simp [Keeps]⟩
  · simp [State.getV_setFlag, hx]
  · simp only [not_or] at hz
    rw [State.getV_advance, State.getV_setFlag, if_neg hz.2, State.getV_setV_other s hz.1]

/-- What a skip leaves unchanged (R26 (e)). -/
theorem skipIf_frame (s : State) (c : Bool) : Frame (fun _ => False) [] s (s.skipIf c) := frame_pc s _

/-- When a data access reports: a byte is touched and the last one lies above 4095 (R255). -/
theorem accessing_fault {len : Nat} {s t : State} {f : Fault} (h : accessing len s t = .fault f) :
    f = .memRange ⟨s.pc, s.fetchWord, s.i⟩ ∧ 1 ≤ len ∧ 4096 < s.i.toNat + len := by
  by_cases hr : 1 ≤ len ∧ 4096 < s.i.toNat + len
  · rw [accessing_outside hr] at h
    injection h with h
    exact ⟨h.symm, hr⟩
  · rw [accessing_inside (by omega)] at h
    cases h

/-- A data access is never refused. -/
theorem accessing_not_refused {len : Nat} {s t : State} {r : Refusal} : accessing len s t ≠ .refused r := by
  unfold accessing report
  split <;> simp

/-- What a draw does to every cell and to the collision flag (R193, R194). -/
theorem spriteDrawn_spec (x y n : BitVec 4) (s : State) :
    let covers := spriteCovers (s.getV x).toNat (s.getV y).toNat (s.mem.readBytes s.i.toNat n.toNat)
    (∀ k, (covers k → fbCell (spriteDrawn x y n s).fb k = !fbCell s.fb k) ∧
      (¬covers k → fbCell (spriteDrawn x y n s).fb k = fbCell s.fb k)) ∧
    ((spriteDrawn x y n s).collision = true ↔ ∃ k, covers k ∧ fbCell s.fb k = true) := by
  intro covers
  have hlen : (s.mem.readBytes s.i.toNat n.toNat).length ≤ 30 := by
    have := n.isLt
    simp
    omega
  obtain ⟨hfb, hcol⟩ := foldl_drawCell (nodup_rowsCells (s.getV x).toNat (s.getV y).toNat 0 hlen)
    (fun k hk => lt_of_mem_rowsCells hk) ⟨s.fb, false⟩
  rw [← drawRows_eq] at hfb hcol
  refine ⟨fun k => ⟨fun hk => ?_, fun hk => ?_⟩, ?_⟩
  · rw [spriteDrawn, hfb k]
    simp [mem_rowsCells_iff_covers.mpr hk]
  · rw [spriteDrawn, hfb k]
    simp [mt mem_rowsCells_iff_covers.mp hk]
  · rw [spriteDrawn, hcol]
    simp only [mem_rowsCells_iff_covers, Bool.false_eq_true, false_or]
    rfl

/-- What a draw that completes answers (R193). -/
theorem execDrw_next {x y n : BitVec 4} {s t : State} (h : execDrw x y n s = .next t) :
    (n.toNat = 0 ∨ s.i.toNat + n.toNat ≤ 4096) ∧ t.fb = (spriteDrawn x y n s).fb ∧ t.redraw = true ∧
      t.getV 15#4 = flagByte (spriteDrawn x y n s).collision ∧ t.pc = s.pc + 2 ∧ Frame (· = 15#4) [.display] s t := by
  obtain ⟨hr, rfl⟩ := accessing_next h
  refine ⟨hr, rfl, rfl, by simp, rfl, fun z hz => ?_, fun p hp => ?_⟩
  · rw [State.getV_advance, State.getV_setFlag, if_neg hz]
    rfl
  · cases p <;> simp [Keeps] at *

end Sys2Proof.Machine
end

