-- ==== Sys2Proof/Laws/Host.lean ====
section
/-!
SUPPORT. What the host's operations can do: an accepted and a refused load, a completed and a reported step, and the
fields that a reset leaves.
-/

namespace Sys2Proof.Machine

theorem loadImage_accepted {image : List Byte} (h : image.length ≤ Config.maxProgram) (s : State) :
    loadImage image s = ({ s with mem := s.mem.writeBytes Config.programBase image }, .done) :=
  if_neg (Nat.not_lt.mpr h)

theorem loadImage_refused {image : List Byte} (h : Config.maxProgram < image.length) (s : State) :
    loadImage image s = (s, loadRefusal image.length) := if_pos h

/-- A load, accepted or refused, keeps the canonical form of memory. -/
theorem wf_loadImage {s : State} (hm : s.mem.wf = true) (image : List Byte) : (loadImage image s).1.mem.wf = true := by
  by_cases h : image.length ≤ Config.maxProgram
  · rw [loadImage_accepted h]
    exact Memory.wf_writeBytes hm image (by simp only [Config.programBase, Config.memSize, Config.maxProgram] at *; omega)
  · rw [loadImage_refused (Nat.lt_of_not_le h)]; exact hm

theorem hostStep_next {s t : State} (h : step s = .next t) : hostStep s = (t, .stepped none) := by
  rw [hostStep, h]

theorem hostStep_fault {s : State} {f : Fault} (h : step s = .fault f) : hostStep s = (s, .stepped (some f.diag)) := by
  rw [hostStep, h]

/-- A reset leaves the reset state, but for the position in the random input. -/
@[simp] theorem hostReset_draws (s : State) : (hostReset s).draws = s.draws := rfl
@[simp] theorem hostReset_v (s : State) : (hostReset s).v = State.reset.v := rfl
@[simp] theorem hostReset_i (s : State) : (hostReset s).i = State.reset.i := rfl
@[simp] theorem hostReset_pc (s : State) : (hostReset s).pc = State.reset.pc := rfl
@[simp] theorem hostReset_stack (s : State) : (hostReset s).stack = State.reset.stack := rfl
@[simp] theorem hostReset_sp (s : State) : (hostReset s).sp = State.reset.sp := rfl
@[simp] theorem hostReset_mem (s : State) : (hostReset s).mem = State.reset.mem := rfl
@[simp] theorem hostReset_fb (s : State) : (hostReset s).fb = State.reset.fb := rfl
@[simp] theorem hostReset_redraw (s : State) : (hostReset s).redraw = State.reset.redraw := rfl
@[simp] theorem hostReset_key (s : State) : (hostReset s).key = State.reset.key := rfl
@[simp] theorem hostReset_dt (s : State) : (hostReset s).dt = State.reset.dt := rfl

end Sys2Proof.Machine
end

