-- ==== Sys2Proof/Laws/PerInstr.lean ====
section
/-!
SUPPORT. Laws stated of every instruction as syntax, one lemma per constructor. Family `EncodesInRow`: an instruction
is well-formed, its row is a row of the opcode map, and the word the encoder writes for it selects that row
(spec/30_encoding.md R92, R96).
-/

namespace Sys2Proof.Laws.EncodesInRow

/-- The instruction is well-formed, its row is in the opcode map, and its word selects that row. -/
def Statement (i : Instr) : Prop := i.wellFormed = true ∧ opRow i ∈ opcodeRows ∧ selects (encode i) (opRow i)

theorem cls : Statement .cls :=
  ⟨Instr.wellFormed_all _, by simp [opRow, opcodeRows, opcodeRowsLow, opcodeRows8, opcodeRowsHigh], rfl⟩

theorem ret : Statement .ret :=
  ⟨Instr.wellFormed_all _, by simp [opRow, opcodeRows, opcodeRowsLow, opcodeRows8, opcodeRowsHigh], rfl⟩

theorem jp (nnn : BitVec 12) : Statement (.jp nnn) :=
  ⟨Instr.wellFormed_all _, by simp [opRow, opcodeRows, opcodeRowsLow, opcodeRows8, opcodeRowsHigh], (selects_F000 _ 0x1).mpr (by simp [encode])⟩

theorem call (nnn : BitVec 12) : Statement (.call nnn) :=
  ⟨Instr.wellFormed_all _, by simp [opRow, opcodeRows, opcodeRowsLow, opcodeRows8, opcodeRowsHigh], (selects_F000 _ 0x2).mpr (by simp [encode])⟩

theorem seImm (x : BitVec 4) (nn : Byte) : Statement (.seImm x nn) :=
  ⟨Instr.wellFormed_all _, by simp [opRow, opcodeRows, opcodeRowsLow, opcodeRows8, opcodeRowsHigh], (selects_F000 _ 0x3).mpr (by simp [encode])⟩

theorem sneImm (x : BitVec 4) (nn : Byte) : Statement (.sneImm x nn) :=
  ⟨Instr.wellFormed_all _, by simp [opRow, opcodeRows, opcodeRowsLow, opcodeRows8, opcodeRowsHigh], (selects_F000 _ 0x4).mpr (by simp [encode])⟩

theorem seReg (x y : BitVec 4) : Statement (.seReg x y) :=
  ⟨Instr.wellFormed_all _, by simp [opRow, opcodeRows, opcodeRowsLow, opcodeRows8, opcodeRowsHigh], (selects_F000 _ 0x5).mpr (by simp [encode])⟩

theorem ldImm (x : BitVec 4) (nn : Byte) : Statement (.ldImm x nn) :=
  ⟨Instr.wellFormed_all _, by simp [opRow, opcodeRows, opcodeRowsLow, opcodeRows8, opcodeRowsHigh], (selects_F000 _ 0x6).mpr (by simp [encode])⟩

theorem addImm (x : BitVec 4) (nn : Byte) : Statement (.addImm x nn) :=
  ⟨Instr.wellFormed_all _, by simp [opRow, opcodeRows, opcodeRowsLow, opcodeRows8, opcodeRowsHigh], (selects_F000 _ 0x7).mpr (by simp [encode])⟩

theorem ldReg (x y : BitVec 4) : Statement (.ldReg x y) :=
  ⟨Instr.wellFormed_all _, by simp [opRow, opcodeRows, opcodeRowsLow, opcodeRows8, opcodeRowsHigh], (selects_F00F _ 0x8 0x0).mpr (by simp [encode])⟩

theorem orReg (x y : BitVec 4) : Statement (.orReg x y) :=
  ⟨Instr.wellFormed_all _, by simp [opRow, opcodeRows, opcodeRowsLow, opcodeRows8, opcodeRowsHigh], (selects_F00F _ 0x8 0x1).mpr (by simp [encode])⟩

theorem andReg (x y : BitVec 4) : Statement (.andReg x y) :=
  ⟨Instr.wellFormed_all _, by simp [opRow, opcodeRows, opcodeRowsLow, opcodeRows8, opcodeRowsHigh], (selects_F00F _ 0x8 0x2).mpr (by simp [encode])⟩

theorem xorReg (x y : BitVec 4) : Statement (.xorReg x y) :=
  ⟨Instr.wellFormed_all _, by simp [opRow, opcodeRows, opcodeRowsLow, opcodeRows8, opcodeRowsHigh], (selects_F00F _ 0x8 0x3).mpr (by simp [encode])⟩

theorem addReg (x y : BitVec 4) : Statement (.addReg x y) :=
  ⟨Instr.wellFormed_all _, by simp [opRow, opcodeRows, opcodeRowsLow, opcodeRows8, opcodeRowsHigh], (selects_F00F _ 0x8 0x4).mpr (by simp [encode])⟩

theorem sub (x y : BitVec 4) : Statement (.sub x y) :=
  ⟨Instr.wellFormed_all _, by simp [opRow, opcodeRows, opcodeRowsLow, opcodeRows8, opcodeRowsHigh], (selects_F00F _ 0x8 0x5).mpr (by simp [encode])⟩

theorem shr (x y : BitVec 4) : Statement (.shr x y) :=
  ⟨Instr.wellFormed_all _, by simp [opRow, opcodeRows, opcodeRowsLow, opcodeRows8, opcodeRowsHigh], (selects_F00F _ 0x8 0x6).mpr (by simp [encode])⟩

theorem subn (x y : BitVec 4) : Statement (.subn x y) :=
  ⟨Instr.wellFormed_all _, by simp [opRow, opcodeRows, opcodeRowsLow, opcodeRows8, opcodeRowsHigh], (selects_F00F _ 0x8 0x7).mpr (by simp [encode])⟩

theorem shl (x y : BitVec 4) : Statement (.shl x y) :=
  ⟨Instr.wellFormed_all _, by simp [opRow, opcodeRows, opcodeRowsLow, opcodeRows8, opcodeRowsHigh], (selects_F00F _ 0x8 0xE).mpr (by simp [encode])⟩

theorem sneReg (x y : BitVec 4) : Statement (.sneReg x y) :=
  ⟨Instr.wellFormed_all _, by simp [opRow, opcodeRows, opcodeRowsLow, opcodeRows8, opcodeRowsHigh], (selects_F000 _ 0x9).mpr (by simp [encode])⟩

theorem ldI (nnn : BitVec 12) : Statement (.ldI nnn) :=
  ⟨Instr.wellFormed_all _, by simp [opRow, opcodeRows, opcodeRowsLow, opcodeRows8, opcodeRowsHigh], (selects_F000 _ 0xA).mpr (by simp [encode])⟩

theorem jpV0 (nnn : BitVec 12) : Statement (.jpV0 nnn) :=
  ⟨Instr.wellFormed_all _, by simp [opRow, opcodeRows, opcodeRowsLow, opcodeRows8, opcodeRowsHigh], (selects_F000 _ 0xB).mpr (by simp [encode])⟩

theorem rnd (x : BitVec 4) (nn : Byte) : Statement (.rnd x nn) :=
  ⟨Instr.wellFormed_all _, by simp [opRow, opcodeRows, opcodeRowsLow, opcodeRows8, opcodeRowsHigh], (selects_F000 _ 0xC).mpr (by simp [encode])⟩

theorem drw (x y n : BitVec 4) : Statement (.drw x y n) :=
  ⟨Instr.wellFormed_all _, by simp [opRow, opcodeRows, opcodeRowsLow, opcodeRows8, opcodeRowsHigh], (selects_F000 _ 0xD).mpr (by simp [encode])⟩

theorem skp (x : BitVec 4) : Statement (.skp x) :=
  ⟨Instr.wellFormed_all _, by simp [opRow, opcodeRows, opcodeRowsLow, opcodeRows8, opcodeRowsHigh], (selects_F0FF _ 0xE 0x9E).mpr (by simp [encode])⟩

theorem sknp (x : BitVec 4) : Statement (.sknp x) :=
  ⟨Instr.wellFormed_all _, by simp [opRow, opcodeRows, opcodeRowsLow, opcodeRows8, opcodeRowsHigh], (selects_F0FF _ 0xE 0xA1).mpr (by simp [encode])⟩

theorem ldVxDt (x : BitVec 4) : Statement (.ldVxDt x) :=
  ⟨Instr.wellFormed_all _, by simp [opRow, opcodeRows, opcodeRowsLow, opcodeRows8, opcodeRowsHigh], (selects_F0FF _ 0xF 0x07).mpr (by simp [encode])⟩

theorem ldVxK (x : BitVec 4) : Statement (.ldVxK x) :=
  ⟨Instr.wellFormed_all _, by simp [opRow, opcodeRows, opcodeRowsLow, opcodeRows8, opcodeRowsHigh], (selects_F0FF _ 0xF 0x0A).mpr (by simp [encode])⟩

theorem ldDtVx (x : BitVec 4) : Statement (.ldDtVx x) :=
  ⟨Instr.wellFormed_all _, by simp [opRow, opcodeRows, opcodeRowsLow, opcodeRows8, opcodeRowsHigh], (selects_F0FF _ 0xF 0x15).mpr (by simp [encode])⟩

theorem addI (x : BitVec 4) : Statement (.addI x) :=
  ⟨Instr.wellFormed_all _, by simp [opRow, opcodeRows, opcodeRowsLow, opcodeRows8, opcodeRowsHigh], (selects_F0FF _ 0xF 0x1E).mpr (by simp [encode])⟩

theorem ldF (x : BitVec 4) : Statement (.ldF x) :=
  ⟨Instr.wellFormed_all _, by simp [opRow, opcodeRows, opcodeRowsLow, opcodeRows8, opcodeRowsHigh], (selects_F0FF _ 0xF 0x29).mpr (by simp [encode])⟩

theorem ldB (x : BitVec 4) : Statement (.ldB x) :=
  ⟨Instr.wellFormed_all _, by simp [opRow, opcodeRows, opcodeRowsLow, opcodeRows8, opcodeRowsHigh], (selects_F0FF _ 0xF 0x33).mpr (by simp [encode])⟩

theorem storeRegs (x : BitVec 4) : Statement (.storeRegs x) :=
  ⟨Instr.wellFormed_all _, by simp [opRow, opcodeRows, opcodeRowsLow, opcodeRows8, opcodeRowsHigh], (selects_F0FF _ 0xF 0x55).mpr (by simp [encode])⟩

theorem loadRegs (x : BitVec 4) : Statement (.loadRegs x) :=
  ⟨Instr.wellFormed_all _, by simp [opRow, opcodeRows, opcodeRowsLow, opcodeRows8, opcodeRowsHigh], (selects_F0FF _ 0xF 0x65).mpr (by simp [encode])⟩

end Sys2Proof.Laws.EncodesInRow
end

