-- ==== Sys2Proof/Tests/Slice0.lean ====
section
/-!
SUPPORT. The model's own tests. The words and the expected values are those of spec/95_test_vectors.md (its ids E and T
stand in the names) or of the opcode map, spec/30_encoding.md R96, written out by hand. Then, for every statement with
hypotheses, a concrete state and operands that meet them.
-/

namespace Sys2Proof.Tests

open Sys2Proof Sys2Proof.Machine

/-! ## Helpers -/

/-- The convention of spec/95: the reset state with a word at `pc`. -/
def start (w : Nat) : State := State.reset.withFetchWord 16 w

/-- A field of the state after one step, if the cycle completes. -/
def after (f : State → α) (s : State) : Option α :=
  match step s with
  | .next t => some (f t)
  | .fault _ => none
  | .refused _ => none

theorem step_of_after {s t : State} (h : after id s = some t) : step s = .next t := by
  unfold after at h
  split at h <;> simp_all

/-- What a reported cycle drives, `(code, at_pc, word, aux)`. -/
def reported (s : State) : Option (BitVec 3 × Word × Word × Word) :=
  match step s with
  | .next _ => none
  | .fault f => some (f.code, f.report.atPc, f.report.word, f.report.aux)
  | .refused _ => none

/-- Two register values to start from. -/
def withV (x : BitVec 4) (a : Byte) (y : BitVec 4) (b : Byte) (s : State) : State := (s.setV x a).setV y b

/-- `I` and one byte of memory to start from. -/
def withI (i : Word) (b : Byte) (s : State) : State := { s with i := i, mem := s.mem.write i.toNat b }

/-- Framebuffer cells that start at 1. -/
def withCells (cells : List Nat) (s : State) : State := { s with fb := cells.foldl fbToggle s.fb }

/-- The cells among `range` that are 1. -/
def lit (range : List Nat) (s : State) : List Nat := range.filter (fbCell s.fb)

/-! ## Well-formedness and the decoder's refusals -/

theorem test_register_number_must_fit : operandsFit [(16, 4)] = false := by decide
theorem test_immediate_must_fit : operandsFit [(7, 4), (256, 8)] = false := by decide
theorem test_address_must_fit : operandsFit [(4096, 12)] = false := by decide
theorem test_largest_operands_fit : (Instr.drw 15 15 15).wellFormed = true ∧ (Instr.jp 4095).wellFormed = true := by
  decide
theorem test_shift_with_y_is_not_canonical :
    (Instr.shr 2 3).canonical = false ∧ (Instr.shl 2 3).canonical = false ∧ (Instr.shr 2 0).canonical = true := by
  decide
theorem test_refused_E8_E9_E10_E11 :
    decode 0x0000 = .unknown 0x0000 ∧ decode 0x8128 = .unknown 0x8128 ∧ decode 0xE29F = .unknown 0xE29F ∧
    decode 0xF018 = .unknown 0xF018 := by decide
theorem test_refused_T39_T136_T137 :
    decode 0x812F = .unknown 0x812F ∧ decode 0xF075 = .unknown 0xF075 ∧ decode 0xF000 = .unknown 0xF000 := by decide
theorem test_table_word_short : decodeTableWord 8 0xE0 = some .cls ∧ decodeTableWord 16 0xF018 = none := by decide

/-! ## Every constructor's word, from the opcode map -/

theorem test_decode_cls : decode 0b0000000011100000 = .instr .cls ∧ decode 0x03E0 = .instr .cls := by decide
theorem test_decode_ret : decode 0b0000000011101110 = .instr .ret ∧ decode 0x07EE = .instr .ret := by decide
theorem test_decode_jp : decode 0b0001001000001110 = .instr (.jp 0x20E) := by decide
theorem test_decode_call : decode 0b0010001000001000 = .instr (.call 0x208) := by decide
theorem test_decode_seImm : decode 0b0011101000101011 = .instr (.seImm 0xA 0x2B) := by decide
theorem test_decode_sneImm : decode 0b0100000100000101 = .instr (.sneImm 0x1 0x05) := by decide
theorem test_decode_seReg : decode 0b0101000100100000 = .instr (.seReg 0x1 0x2) ∧
    decode 0x5127 = .instr (.seReg 0x1 0x2) := by decide
theorem test_decode_ldImm : decode 0b0110101000101011 = .instr (.ldImm 0xA 0x2B) := by decide
theorem test_decode_addImm : decode 0b0111001100001010 = .instr (.addImm 0x3 0x0A) := by decide
theorem test_decode_ldReg : decode 0b1000001111110000 = .instr (.ldReg 0x3 0xF) := by decide
theorem test_decode_orReg : decode 0b1000000100100001 = .instr (.orReg 0x1 0x2) := by decide
theorem test_decode_andReg : decode 0b1000000100100010 = .instr (.andReg 0x1 0x2) := by decide
theorem test_decode_xorReg : decode 0b1000000100100011 = .instr (.xorReg 0x1 0x2) := by decide
theorem test_decode_addReg : decode 0b1000101010110100 = .instr (.addReg 0xA 0xB) := by decide
theorem test_decode_sub : decode 0b1000101010110101 = .instr (.sub 0xA 0xB) := by decide
theorem test_decode_shr : decode 0b1000001000110110 = .instr (.shr 0x2 0x3) := by decide
theorem test_decode_subn : decode 0b1000000100100111 = .instr (.subn 0x1 0x2) := by decide
theorem test_decode_shl : decode 0b1000001000111110 = .instr (.shl 0x2 0x3) := by decide
theorem test_decode_sneReg : decode 0b1001000100100000 = .instr (.sneReg 0x1 0x2) ∧
    decode 0x912F = .instr (.sneReg 0x1 0x2) := by decide
theorem test_decode_ldI : decode 0b1010001011110000 = .instr (.ldI 0x2F0) := by decide
theorem test_decode_jpV0 : decode 0b1011001100000000 = .instr (.jpV0 0x300) := by decide
theorem test_decode_rnd : decode 0b1100001100001111 = .instr (.rnd 0x3 0x0F) := by decide
theorem test_decode_drw : decode 0b1101000100100101 = .instr (.drw 0x1 0x2 0x5) := by decide
theorem test_decode_skp : decode 0b1110001010011110 = .instr (.skp 0x2) := by decide
theorem test_decode_sknp : decode 0b1110000010100001 = .instr (.sknp 0x0) := by decide
theorem test_decode_ldVxDt : decode 0b1111001100000111 = .instr (.ldVxDt 0x3) := by decide
theorem test_decode_ldVxK : decode 0b1111010100001010 = .instr (.ldVxK 0x5) := by decide
theorem test_decode_ldDtVx : decode 0b1111000100010101 = .instr (.ldDtVx 0x1) := by decide
theorem test_decode_addI : decode 0b1111000100011110 = .instr (.addI 0x1) := by decide
theorem test_decode_ldF : decode 0b1111010000101001 = .instr (.ldF 0x4) := by decide
theorem test_decode_ldB : decode 0b1111000100110011 = .instr (.ldB 0x1) := by decide
theorem test_decode_storeRegs : decode 0b1111001001010101 = .instr (.storeRegs 0x2) := by decide
theorem test_decode_loadRegs : decode 0b1111001001100101 = .instr (.loadRegs 0x2) := by decide

/-! ## Register and ALU family -/

theorem test_T1_ldImm : after (fun t => (t.getV 10, t.pc)) (start 0x6A2B) = some (43, 0x202) := by decide
theorem test_T3_addImm : after (fun t => (t.getV 3, t.getV 15)) ((start 0x730A).setV 3 250) = some (4, 0) := by decide
theorem test_T5_addImm_wraps : after (fun t => (t.getV 0, t.getV 15)) ((start 0x7001).setV 0 255) = some (0, 0) := by
  decide
theorem test_T7_ldReg : after (fun t => (t.getV 3, t.getV 15)) ((start 0x83F0).setV 15 1) = some (1, 1) := by decide
theorem test_T12_or_flag_wins :
    after (fun t => (t.getV 15, t.getV 1)) (withV 15 0x55 1 0xAA (start 0x8F11)) = some (0, 0xAA) := by decide
theorem test_T13_or_reads_old_flag :
    after (fun t => (t.getV 1, t.getV 15)) (withV 1 2 15 1 (start 0x81F1)) = some (3, 0) := by decide
theorem test_T9_and : after (fun t => (t.getV 1, t.getV 15)) (withV 1 0x3C 2 0x0F ((start 0x8122).setV 15 1)) =
    some (0x0C, 0) := by decide
theorem test_T10_xor : after (fun t => (t.getV 1, t.getV 15)) (withV 1 0xFF 2 0x0F ((start 0x8123).setV 15 1)) =
    some (0xF0, 0) := by decide
theorem test_T14_add : after (fun t => (t.getV 10, t.getV 15)) (withV 10 250 11 10 (start 0x8AB4)) = some (4, 1) := by
  decide
theorem test_T18_add_flag_wins : after (fun t => t.getV 15) (withV 15 200 14 100 (start 0x8FE4)) = some 1 := by decide
theorem test_T20_sub : after (fun t => (t.getV 10, t.getV 15)) (withV 10 5 11 10 (start 0x8AB5)) = some (251, 0) := by
  decide
theorem test_T21_sub_equal : after (fun t => (t.getV 1, t.getV 15)) (withV 1 10 2 10 (start 0x8125)) = some (0, 1) := by
  decide
theorem test_T28_shr_ignores_y : after (fun t => (t.getV 2, t.getV 15)) (withV 2 0x80 3 0xFF (start 0x8236)) =
    some (0x40, 0) := by decide
theorem test_T29_shr_flag_wins : after (fun t => t.getV 15) ((start 0x8F06).setV 15 3) = some 1 := by decide
theorem test_T24_subn : after (fun t => (t.getV 1, t.getV 15)) (withV 1 3 2 10 (start 0x8127)) = some (7, 1) := by
  decide
theorem test_T25_subn_borrow : after (fun t => (t.getV 1, t.getV 15)) (withV 1 10 2 5 (start 0x8127)) =
    some (251, 0) := by decide
theorem test_T31_shl : after (fun t => (t.getV 2, t.getV 15)) ((start 0x820E).setV 2 0x81) = some (2, 1) := by decide
theorem test_T34_shl_ignores_y : after (fun t => (t.getV 2, t.getV 15)) (withV 2 0xFF 3 0 (start 0x823E)) =
    some (0xFE, 1) := by decide
theorem test_T36_rnd_mask_zero : after (fun t => t.getV 3) ((start 0xC300).setV 3 9) = some 0 :=
  congrArg some (by simp : Config.rnd 0 &&& 0 = 0)
theorem test_T37_rnd_is_the_free_byte : after (fun t => t.getV 3) (start 0xC3FF) = some (Config.rnd 0) :=
  congrArg some (by exact BitVec.and_allOnes : Config.rnd 0 &&& 255 = Config.rnd 0)

/-! ## Control-flow family -/

theorem test_T40_jp : after (·.pc) (start 0x1234) = some 0x234 := by decide
theorem test_T45_jpV0_is_not_masked : after (·.pc) ((start 0xBFFF).setV 0 255) = some 0x10FE := by decide
theorem test_T47_call_to_depth_16 : after (fun t => (t.stack[15], t.sp, t.pc)) { start 0x2300 with sp := 15 } =
    some (0x200, 16, 0x300) := by decide
theorem test_T48_call_overflow : reported { start 0x2300 with sp := 16 } = some (2, 0x200, 0x2300, 16) := by decide
theorem test_T49_ret : after (fun t => (t.sp, t.pc, t.stack[0]))
    { start 0x00EE with sp := 1, stack := State.reset.stack.set 0 0x204 } = some (0, 0x206, 0x204) := by decide
theorem test_T50_ret_underflow : reported (start 0x00EE) = some (3, 0x200, 0x00EE, 0) := by decide
theorem test_T53_T54_seImm : after (·.pc) ((start 0x3A2B).setV 10 0x2B) = some 0x204 ∧
    after (·.pc) ((start 0x3A2B).setV 10 0x2C) = some 0x202 := by decide
theorem test_T55_T56_sneImm : after (·.pc) ((start 0x4105).setV 1 5) = some 0x202 ∧
    after (·.pc) ((start 0x4106).setV 1 5) = some 0x204 := by decide
theorem test_T57_T58_seReg : after (·.pc) (withV 1 9 2 9 (start 0x5120)) = some 0x204 ∧
    after (·.pc) (withV 1 9 2 8 (start 0x5120)) = some 0x202 := by decide
theorem test_T61_T62_sneReg : after (·.pc) (withV 1 9 2 8 (start 0x9120)) = some 0x204 ∧
    after (·.pc) (withV 1 9 2 9 (start 0x9120)) = some 0x202 := by decide

/-! ## Display family -/

theorem test_T70_cls : after (fun t => (lit [0, 100, 2047] t, t.redraw)) (withCells [0, 100, 2047] (start 0x00E0)) =
    some ([], true) := by decide
theorem test_T75_drw_runs_into_the_next_row :
    after (fun t => (lit [59, 60, 63, 64, 67, 68, 0] t, t.getV 15)) ((withI 0x300 0xFF (start 0xD011)).setV 0 60) =
    some ([60, 63, 64, 67], 0) := by decide
theorem test_T82_drw_collision : after (fun t => (lit [3, 4, 5, 6] t, t.getV 15))
    (withCells [3, 4] ((withI 0x300 0x90 (start 0xD011)).setV 0 3)) = some ([4, 6], 1) := by decide
theorem test_T81_drw_past_memory : reported { start 0xD012 with i := 0xFFF } = some (4, 0x200, 0xD012, 0xFFF) := by
  decide

/-! ## Keypad, timer, index and memory family -/

theorem test_T90_T91_skp : after (·.pc) { (start 0xE29E).setV 2 7 with key := 0x80 } = some 0x204 ∧
    after (·.pc) ((start 0xE29E).setV 2 7) = some 0x202 := by decide
theorem test_T94_skp_out_of_range : reported ((start 0xE29E).setV 2 16) = some (6, 0x200, 0xE29E, 16) := by decide
theorem test_T92_T93_sknp : after (·.pc) { (start 0xE2A1).setV 2 7 with key := 0x80 } = some 0x202 ∧
    after (·.pc) ((start 0xE2A1).setV 2 7) = some 0x204 := by decide
theorem test_T95_sknp_out_of_range : reported ((start 0xE2A1).setV 2 255) = some (6, 0x200, 0xE2A1, 255) := by decide
theorem test_T98_wait_highest_key : after (fun t => (t.getV 5, t.pc)) { start 0xF50A with key := 0x208 } =
    some (9, 0x202) := by decide
theorem test_T99_wait_ticks : after (fun t => (t.dt, t.pc)) { start 0xF50A with dt := 4 } = some (3, 0x200) := by decide
theorem test_T102_timer_read : after (fun t => (t.getV 3, t.dt)) { start 0xF307 with dt := 5 } = some (5, 4) := by
  decide
theorem test_T106_timer_set : after (·.dt) ((start 0xF015).setV 0 255) = some 254 := by decide
theorem test_T105_timer_set_zero : after (·.dt) { start 0xF015 with dt := 9 } = some 0 := by decide
theorem test_T110_ldI : after (fun t => (t.i, t.pc)) (start 0xA2F0) = some (0x2F0, 0x202) := by decide
theorem test_T113_addI_no_overflow : after (fun t => (t.i, t.getV 15)) { (start 0xF11E).setV 15 1 with i := 0xFFF } =
    some (0xFFF, 0) := by decide
theorem test_T115_addI_wraps : after (fun t => (t.i, t.getV 15)) { (start 0xF11E).setV 1 1 with i := 0xFFFF } =
    some (0, 1) := by decide
theorem test_T120_ldF : after (·.i) ((start 0xF429).setV 4 255) = some 1275 := by decide
theorem test_T124_bcd_at_the_top : after (fun t => (t.mem.readBytes 0xFFD 3, t.i))
    { (start 0xF033).setV 0 255 with i := 0xFFD } = some ([2, 5, 5], 0xFFD) := by decide
theorem test_T125_bcd_past_memory : reported { (start 0xF033).setV 0 255 with i := 0xFFE } =
    some (4, 0x200, 0xF033, 0xFFE) := by decide
theorem test_T127_store : after (fun t => (t.mem.readBytes 0x300 4, t.i))
    { withV 2 3 3 4 (withV 0 1 1 2 (start 0xF255)) with i := 0x300 } = some ([1, 2, 3, 0], 0x303) := by decide
theorem test_T129_store_past_memory : reported { start 0xF155 with i := 0xFFF } = some (4, 0x200, 0xF155, 0xFFF) := by
  decide
theorem test_T132_load_font : after (fun t => (t.getV 0, t.getV 5, t.getV 15, t.i)) (start 0xFF65) =
    some (0xF0, 0x20, 0xF0, 16) := by decide
theorem test_T133_load_past_memory : reported { start 0xF065 with i := 0x1000 } = some (4, 0x200, 0xF065, 0x1000) := by
  decide

/-! ## Host operations -/

theorem test_S2_load : (loadImage [0x12, 0x00] State.reset).1.mem = [(512, 0x12)] := by decide
theorem test_load_one_byte_too_long : (loadImage (List.replicate 3585 0x12) State.reset).2 = .loadTooLong 7 0 3585 := by
  rw [loadImage, if_pos (by rw [List.length_replicate]; decide), List.length_replicate]; rfl
theorem test_H1_set_and_clear_key : (hostRun [.setKey 4 true, .setKey 9 true, .setKey 4 false] State.reset).key = 0x200 := by
  decide
theorem test_T42_T109_codes : reported (start 0x0000) = some (1, 0x200, 0x0000, 0) ∧
    reported { State.reset with pc := 0xFFF } = some (5, 0xFFF, 0, 0) := by decide
theorem test_reset_draws_on : (hostOp .reset { State.reset with draws := 7, dt := 9 }).1 =
    { State.reset with draws := 7 } := by decide
theorem test_legal_runs : legalRun .off [.reset, .load [], .step, .reset, .step] = true ∧
    legalRun .off [.reset, .step, .load []] = false ∧ legalRun .off [.step] = false := by decide

/-! ## Witnesses: for each statement with hypotheses, inputs that meet them -/

/-- A core whose program has ended at 512, with the timer running (T108). -/
def ended : State := { start 0x1200 with dt := 200 }

theorem wit_DecodeSelectsExactlyOneRow : decode 0xD125 = .instr (.drw 1 2 5) ∧
    ((0xD000, 0xF000) : Word × Word) ∈ opcodeRows ∧ selects 0xD125 (0xD000, 0xF000) :=
  ⟨by decide, by decide, by unfold selects; decide⟩
theorem wit_UnrecognisedWordsAreThoseListed : decode 0xF018 = .unknown 0xF018 ∧ decode 0x0000 = .unknown 0x0000 ∧
    decode 0x8FFF = .unknown 0x8FFF ∧ decode 0xEFFF = .unknown 0xEFFF := by decide
theorem wit_StepRunsDecodedInstruction : (start 0x6A2B).pc.toNat ≤ 4094 ∧
    decode (start 0x6A2B).fetchWord = .instr (.ldImm 0xA 0x2B) ∧
    ∃ t, exec (.ldImm 0xA 0x2B) (start 0x6A2B) = .next t := ⟨by decide, by decide, _, rfl⟩
theorem wit_StepRunsDecodedInstruction_fault : (start 0x00EE).pc.toNat ≤ 4094 ∧
    decode (start 0x00EE).fetchWord = .instr .ret ∧ ∃ f, exec .ret (start 0x00EE) = .fault f :=
  ⟨by decide, by decide, _, rfl⟩
theorem wit_UnknownWordIsReported : (start 0xF018).pc.toNat ≤ 4094 ∧
    decode (start 0xF018).fetchWord = .unknown (start 0xF018).fetchWord := by decide
theorem wit_UnknownWordIsReported_last_slot : let s := { State.reset with pc := 4094 }
    s.pc.toNat ≤ 4094 ∧ decode s.fetchWord = .unknown s.fetchWord := by decide
theorem wit_FetchOutOfRangeIsReported : 4094 < ({ State.reset with pc := 4095 } : State).pc.toNat := by decide
theorem wit_PlacedWordIsRunNext : ({ State.reset with pc := 4094 } : State).pc.toNat ≤ 4094 ∧
    decodeTableWord 16 0x00E0 = some .cls := by decide
theorem wit_CallPushesItsAddress : ({ State.reset with sp := 15 } : State).sp.val < 16 := by decide
theorem wit_CallPushesItsAddress_full : ({ State.reset with sp := 16 } : State).sp.val = 16 := by decide
theorem wit_ReturnPopsAndAdvances : 0 < ({ State.reset with sp := 1 } : State).sp.val := by decide
theorem wit_ReturnPopsAndAdvances_empty : State.reset.sp.val = 0 := by decide
theorem wit_CallReturnRoundTrip : ∃ t : State, exec (.call 0x208) State.reset = .next t ∧
    ∃ u : State, u.sp = t.sp ∧ u.stack[0]? = some 0x200 ∧ u.stack ≠ t.stack :=
  ⟨_, rfl, { State.reset with sp := 1, stack := (State.reset.stack.set 0 0x200).set 1 0x208 }, by decide, by decide,
    by decide⟩
theorem wit_SkipsCompareRegisters : State.reset.getV 1 = 0 ∧ State.reset.getV 1 ≠ 5 := by decide
theorem wit_DrawInvertsCoveredCells_no_rows : (0#4).toNat = 0 ∨ (0xFFFF#16).toNat + (0#4).toNat - 1 ≤ 4095 := by decide
theorem wit_DrawInvertsCoveredCells : let s := withI 0xFFF 0x01 State.reset
    (s.i.toNat + (1#4).toNat - 1 ≤ 4095) ∧ 1 ≤ (2#4).toNat ∧ s.i.toNat + (2#4).toNat - 1 > 4095 := by decide
theorem wit_DrawInvertsCoveredCells_covered : spriteCovers 60 31 [0xFF] 3 ∧ ¬spriteCovers 60 31 [] 3 :=
  ⟨⟨0, 7, by decide, by decide, by decide, by decide⟩, fun ⟨_, _, h, _⟩ => absurd h (by simp)⟩
theorem wit_DrawInvertsCoveredCells_collides :
    spriteCovers 0 0 [0x80] 0 ∧ fbCell (withCells [0] State.reset).fb 0 = true :=
  ⟨⟨0, 0, by decide, by decide, by decide, by decide⟩, by decide⟩
theorem wit_DrawTwiceRestores : ∃ t : State, exec (.drw 0 1 1) (withI 0x300 0xFF State.reset) = .next t ∧
    t.mem = (withI 0x300 0xFF State.reset).mem ∧ t.i = 0x300 ∧ t.getV 0 = 0 ∧ t.getV 1 = 0 :=
  ⟨_, rfl, rfl, rfl, rfl, rfl⟩
theorem wit_DrawDependsOnLinearStart : let s := (withI 0x300 0x80 State.reset).setV 0 64
    let u := (withI 0x300 0x80 State.reset).setV 1 1
    u.fb = s.fb ∧ u.mem = s.mem ∧ u.i = s.i ∧
    ((s.getV 0).toNat + 64 * (s.getV 1).toNat) % 2048 = ((u.getV 0).toNat + 64 * (u.getV 1).toNat) % 2048 ∧
    ∃ t, exec (.drw 0 1 1) s = .next t := ⟨rfl, rfl, rfl, by decide, _, rfl⟩
theorem wit_DrawChangesAtMostItsPixels : ∃ t, exec (.drw 0 0 15) State.reset = .next t := ⟨_, rfl⟩
theorem wit_DataPastMemoryIsReported :
    (1 ≤ (2#4).toNat ∧ (0xFFF#16).toNat + (2#4).toNat - 1 > 4095) ∧ (0xFFE#16).toNat + 2 > 4095 ∧
    (0x1000#16).toNat + (0#4).toNat > 4095 ∧ (0xFF1#16).toNat + (15#4).toNat > 4095 := by decide
theorem wit_KeySkips : (((State.reset.setV 2 15)).getV 2).toNat ≤ 15 ∧
    ({ State.reset with key := 0x8000 } : State).key.getLsbD 15 = true ∧ State.reset.key.getLsbD 15 = false := by decide
theorem wit_KeySkips_out_of_range : 15 < ((State.reset.setV 2 16).getV 2).toNat := by decide
theorem wit_WaitForKeyRecordsHighest : let s := { State.reset with key := 0x208 }
    9 < 16 ∧ s.key.getLsbD 9 = true ∧ ∀ j, j < 16 → s.key.getLsbD j = true → j ≤ 9 := by decide
theorem wit_WaitForKeyRecordsHighest_none_held : (∀ k, k < 16 → (start 0xF50A).key.getLsbD k = false) ∧ (start 0xF50A).pc.toNat ≤ 4094 ∧
    decode (start 0xF50A).fetchWord = .instr (.ldVxK 5) := by decide
theorem wit_EveryCompletedCycleTicks : decode (start 0xF015).fetchWord = .instr (.ldDtVx 0) ∧
    ∃ t, step (start 0xF015) = .next t := ⟨by decide, _, rfl⟩
/-- An `FX0A` wait with the timer running, which a key that the host sets after the first cycle ends. -/
def keyWait : Nat → State
  | 0 => { start 0xF50A with dt := 4 }
  | 1 => { start 0xF50A with dt := 3, key := 0x8 }
  | _ => { (start 0xF50A).setV 5 3 with dt := 2, key := 0x8, pc := 0x202 }

theorem wit_TimerCountsInstructions : ∀ j, j < 2 →
    (∃ t, step (keyWait j) = .next t ∧ (keyWait (j + 1)).dt = t.dt) ∧
    ∀ x, decode (keyWait j).fetchWord ≠ .instr (.ldDtVx x) := by
  intro j hj
  obtain rfl | rfl : j = 0 ∨ j = 1 := by omega
  · exact ⟨⟨_, rfl, by decide⟩, by decide⟩
  · exact ⟨⟨_, rfl, by decide⟩, by decide⟩
theorem wit_DecimalDigitsStored : ({ State.reset with i := 0xFFD } : State).i.toNat + 2 ≤ 4095 ∧
    ({ State.reset with i := 0xFFE } : State).i.toNat + 2 > 4095 := by decide
theorem wit_RegistersStored_and_RegistersLoaded :
    ({ State.reset with i := 0xFFF } : State).i.toNat + (0#4).toNat ≤ 4095 ∧
    ({ State.reset with i := 0xFF0 } : State).i.toNat + (15#4).toNat ≤ 4095 ∧
    ({ State.reset with i := 0xFF1 } : State).i.toNat + (15#4).toNat > 4095 := by decide
theorem wit_StoreThenLoadRestoresRegisters : ∃ t, exec (.storeRegs 15) (State.reset.setV 3 7) = .next t ∧
    ({ t with i := 0 } : State).mem = t.mem ∧ ({ t with i := 0 } : State).i = (State.reset.setV 3 7).i :=
  ⟨_, rfl, rfl, rfl⟩
theorem wit_StepKeepsInvariant : ended.Inv ∧ ∃ t, step ended = .next t := ⟨by unfold State.Inv; decide, _, rfl⟩
theorem wit_InstructionsWriteOnlyTheirState : ∃ t, exec (.ldB 0) State.reset = .next t := ⟨_, rfl⟩
theorem wit_ConditionsComeOnlyFromTheirInstructions :
    (∃ f, exec (.call 0) { State.reset with sp := 16 } = .fault f) ∧ (∃ f, exec .ret State.reset = .fault f) ∧
    (∃ f, exec (.ldB 0) { State.reset with i := 0xFFE } = .fault f) ∧
    ∃ f, exec (.skp 2) (State.reset.setV 2 16) = .fault f := ⟨⟨_, rfl⟩, ⟨_, rfl⟩, ⟨_, rfl⟩, ⟨_, rfl⟩⟩
theorem wit_RandomInputReachesOnlyRnd : (∀ x nn, Instr.cls ≠ .rnd x nn) ∧ ∃ t, exec .cls State.reset = .next t :=
  ⟨fun _ _ h => Instr.noConfusion h, _, rfl⟩
theorem wit_RedrawCoversEveryChange : ∃ t, step (withCells [5] (start 0x00E0)) = .next t ∧
    t.fb ≠ (withCells [5] (start 0x00E0)).fb := ⟨_, rfl, by decide⟩
theorem wit_EndedProgramOnlyTicks : ended.Ended := ⟨by decide, 0x200, by decide, by decide⟩
theorem wit_HeldCoreStaysHeld : (start 0x00EE).Holds (.stackUnderflow ⟨512, 0x00EE, 0⟩) ∧
    [HostOp.step, .setKey 3 true, .readFb 0, .readRedraw, .clearRedraw].all HostOp.duringRun = true :=
  ⟨rfl, by decide⟩
theorem wit_HostStepDrivesDiagnostic : (∃ t, step ended = .next t) ∧
    (∃ r, step (start 0xF018) = .fault (.unknownInstruction r)) ∧
    (∃ r, step { start 0x2300 with sp := 16 } = .fault (.stackOverflow r)) ∧
    (∃ r, step (start 0x00EE) = .fault (.stackUnderflow r)) ∧
    (∃ r, step { start 0xF033 with i := 0xFFE } = .fault (.memRange r)) ∧
    (∃ r, step { State.reset with pc := 4095 } = .fault (.fetchRange r)) ∧
    ∃ r, step ((start 0xE29E).setV 2 16) = .fault (.keyRange r) :=
  ⟨⟨_, rfl⟩, ⟨_, rfl⟩, ⟨_, rfl⟩, ⟨_, rfl⟩, ⟨_, rfl⟩, ⟨_, rfl⟩, ⟨_, rfl⟩⟩
theorem wit_HostOperationsKeepInvariant : ended.Inv := by unfold State.Inv; decide
theorem wit_LoadPlacesImage : (List.replicate 3584 (0x12 : Byte)).length ≤ 3584 := by rw [List.length_replicate]
theorem wit_LoadTooLongIsRefused : 3584 < (List.replicate 3585 (0x12 : Byte)).length := by
  rw [List.length_replicate]; decide

end Sys2Proof.Tests
end

section
/-!
PROOFS. The statements of spec/10_state.md: what each handler writes (R20, R21, R23), and the invariant of the reachable
states, at reset and over every completed cycle (R26, R27, R37, R38).
-/

namespace Sys2Proof.Machine

/-! ## Frames of the handlers (spec/10_state.md R20, R21, R23) -/

/-- Nothing changed at all. -/
theorem Frame.refl (regs : BitVec 4 → Prop) (parts : List Part) (s : State) : Frame regs parts s s :=
  ⟨fun _ _ => rfl, fun p _ => by cases p <;> simp [Keeps]⟩

/-- A state with the register file of the start differs from it in parts alone. -/
theorem Frame.of_v_eq {regs : BitVec 4 → Prop} {parts : List Part} {s t : State} (hv : t.v = s.v)
    (hp : ∀ p, p ∉ parts → Keeps p s t) : Frame regs parts s t :=
  ⟨fun z _ => State.getV_congr hv z, hp⟩

/-- `pc` stands in no frame. -/
theorem Frame.setPc {regs : BitVec 4 → Prop} {parts : List Part} {s t : State} (h : Frame regs parts s t) (pc : Word) :
    Frame regs parts s { t with pc := pc } := by
  obtain ⟨hreg, hpart⟩ := h
  exact ⟨hreg, fun p hp => by cases p <;> exact hpart _ hp⟩

/-- Advancing `pc` changes nothing a frame speaks of (R26 (g)). -/
theorem Frame.advance {regs : BitVec 4 → Prop} {parts : List Part} {s t : State} (h : Frame regs parts s t) :
    Frame regs parts s t.advance := h.setPc _

/-- A further write of a register keeps a frame that names the register. -/
theorem Frame.setV {regs : BitVec 4 → Prop} {parts : List Part} {s t : State} (h : Frame regs parts s t)
    {x : BitVec 4} (hx : regs x) (b : Byte) : Frame regs parts s (t.setV x b) := by
  obtain ⟨hreg, hpart⟩ := h
  refine ⟨fun z hz => ?_, fun p hp => by cases p <;> exact hpart _ hp⟩
  have hzx : z ≠ x := fun e => hz (e ▸ hx)
  rw [State.getV_setV_other t hzx, hreg z hz]

/-- A push writes the call stack alone (R172). -/
theorem push_frame (s : State) (hsp : s.sp.val < 16) : Frame (fun _ => False) [.callStack] s (s.push hsp) :=
  .of_v_eq rfl fun p hp => by cases p <;> simp [Keeps] at *

/-- A pop writes the call stack alone (R173). -/
theorem pop_frame (s : State) : Frame (fun _ => False) [.callStack] s s.pop :=
  .of_v_eq rfl fun p hp => by cases p <;> simp [Keeps] at *

/-- The frame of a handler that writes one register. -/
theorem writeReg_frame {x : BitVec 4} {result : Byte} {s t : State} (h : writeReg x result s = .next t) :
    Frame (· = x) [] s t := by
  obtain ⟨-, -, hframe⟩ := writeReg_next h
  exact hframe

/-- The frame of a handler that writes a register and the flag. -/
theorem writeRegFlag_frame {x : BitVec 4} {result flag : Byte} {s t : State}
    (h : writeRegFlag x result flag s = .next t) : Frame (fun z => z = x ∨ z = 15#4) [] s t := by
  obtain ⟨-, -, -, hframe⟩ := writeRegFlag_next h
  exact hframe

/-! ## What the remaining handlers answer -/

/-- What a return that completes answers (R173). -/
theorem execRet_next {s t : State} (h : execRet s = .next t) :
    ∃ hsp : 0 < s.sp.val, t = { s.pop with pc := s.top hsp + 2 } := by
  unfold execRet report at h
  split at h
  next hsp => injection h with h; exact ⟨hsp, h.symm⟩
  next => cases h

/-- What a call that completes answers (R172). -/
theorem execCall_next {nnn : BitVec 12} {s t : State} (h : execCall nnn s = .next t) :
    ∃ hsp : s.sp.val < 16, t = { s.push hsp with pc := addressOperand nnn } := by
  unfold execCall report at h
  split at h
  next hsp => injection h with h; exact ⟨hsp, h.symm⟩
  next => cases h

/-- `EX9E`, when it completes, is a skip (R200). -/
theorem execSkp_next {x : BitVec 4} {s t : State} (h : execSkp x s = .next t) : ∃ c, t = s.skipIf c := by
  unfold execSkp report at h
  split at h
  next => cases h
  next k _ => injection h with h; exact ⟨_, h.symm⟩

/-- `EXA1`, when it completes, is a skip (R201). -/
theorem execSknp_next {x : BitVec 4} {s t : State} (h : execSknp x s = .next t) : ∃ c, t = s.skipIf c := by
  unfold execSknp report at h
  split at h
  next => cases h
  next k _ => injection h with h; exact ⟨_, h.symm⟩

/-- `FX0A` waits, with nothing written, or records a key (R202). -/
theorem execLdVxK_next {x : BitVec 4} {s t : State} (h : execLdVxK x s = .next t) :
    t = s ∨ ∃ k, s.lastHeldKey = some k ∧ writeReg x (BitVec.ofNat 8 k) s = .next t := by
  unfold execLdVxK at h
  split at h
  next => injection h with h; exact .inl h.symm
  next k hk => exact .inr ⟨k, hk, h⟩

/-- Every handler that completes writes only its own registers and parts (R20, R21, R23). -/
theorem exec_frame {i : Instr} {s t : State} (h : exec i s = .next t) : Frame (writesReg i) (writesParts i) s t := by
  cases i with
  | ldImm | addImm | ldReg | ldVxDt => exact writeReg_frame h
  | orReg | andReg | xorReg | addReg | sub | shr | subn | shl => exact writeRegFlag_frame h
  | jp | jpV0 | seImm | sneImm | seReg | sneReg =>
    injection h with h
    subst h
    exact frame_pc s _
  | skp =>
    obtain ⟨c, rfl⟩ := execSkp_next h
    exact skipIf_frame s c
  | sknp =>
    obtain ⟨c, rfl⟩ := execSknp_next h
    exact skipIf_frame s c
  | ldVxK x =>
    obtain rfl | ⟨k, -, hk⟩ := execLdVxK_next h
    · exact .refl ..
    · exact writeReg_frame hk
  | cls | ldI | ldF | ldDtVx =>
    injection h with h
    subst h
    exact .of_v_eq rfl fun p hp => by cases p <;> simp [Keeps, writesParts] at *
  | rnd | addI =>
    injection h with h
    subst h
    refine .advance (.setV ?_ ?_ _)
    · exact .of_v_eq rfl fun p hp => by cases p <;> simp [Keeps, writesParts] at *
    · exact rfl
  | ret =>
    obtain ⟨-, rfl⟩ := execRet_next h
    exact (pop_frame s).setPc _
  | call =>
    obtain ⟨hsp, rfl⟩ := execCall_next h
    exact (push_frame s hsp).setPc _
  | drw x y n =>
    obtain ⟨-, -, -, -, -, hframe⟩ := execDrw_next h
    exact hframe
  | ldB | storeRegs =>
    obtain ⟨-, rfl⟩ := accessing_next h
    exact .of_v_eq rfl fun p hp => by cases p <;> simp [Keeps, writesParts] at *
  | loadRegs x =>
    obtain ⟨-, rfl⟩ := accessing_next h
    refine ⟨fun z hz => ?_, fun p hp => by cases p <;> simp [Keeps, writesParts] at *⟩
    exact (getV_regsLoaded s _ x z rfl).trans (if_neg hz)

/-- Settles O44, handler by handler (`exec_frame`). -/
theorem instructionsWriteOnlyTheirState : Obligations.InstructionsWriteOnlyTheirState :=
  fun _ _ _ h => exec_frame h

/-! ## The invariant (spec/10_state.md R26, R27, R38) -/

namespace State

/-- The invariant speaks of memory, `pc` and the stack slots alone. -/
theorem Inv.congr {s t : State} (hs : s.Inv) (hm : t.mem = s.mem) (hp : t.pc = s.pc) (hst : t.stack = s.stack) :
    t.Inv := by
  unfold Inv
  rw [hm, hp, hst]
  exact hs

/-- A `pc` of at most 4350 keeps the invariant. -/
theorem Inv.setPc {s : State} (hs : s.Inv) {pc : Word} (hpc : pc.toNat ≤ 4350) : State.Inv { s with pc := pc } := by
  obtain ⟨hmem, -, hslots⟩ := hs
  exact ⟨hmem, hpc, hslots⟩

/-- A skip from a `pc` that could be fetched from keeps the invariant (R26 (e)). -/
theorem Inv.skipIf {s : State} (hs : s.Inv) (hpc : s.pc.toNat ≤ 4094) (c : Bool) : (s.skipIf c).Inv := by
  refine hs.setPc ?_
  split <;> bv_omega

/-- An advance from a `pc` that could be fetched from keeps the invariant (R26 (g)). -/
theorem Inv.advance {s : State} (hs : s.Inv) (hpc : s.pc.toNat ≤ 4094) : s.advance.Inv := hs.skipIf hpc false

/-- Pushing a `pc` that could be fetched from keeps the invariant (R27, R172). -/
theorem Inv.push {s : State} (hs : s.Inv) (hpc : s.pc.toNat ≤ 4094) (hsp : s.sp.val < 16) : (s.push hsp).Inv := by
  obtain ⟨hmem, hle, hslots⟩ := hs
  refine ⟨hmem, hle, fun j => ?_⟩
  by_cases hj : s.sp.val = j.val
  · simpa [Vector.getElem_set, hj] using hpc
  · simpa [Vector.getElem_set, hj] using hslots j

/-- A pop leaves the slots, and so the invariant (R173). -/
theorem Inv.pop {s : State} (hs : s.Inv) : s.pop.Inv := hs.congr rfl rfl rfl

/-- The return address is at most 4096 (R173). -/
theorem Inv.top_add_two_le {s : State} (hs : s.Inv) (hsp : 0 < s.sp.val) : (s.top hsp + 2).toNat ≤ 4096 := by
  obtain ⟨-, -, hslots⟩ := hs
  have hslot : (s.top hsp).toNat ≤ 4094 := hslots ⟨s.sp.val - 1, by omega⟩
  bv_omega

/-- A multi-byte store inside memory keeps the invariant. -/
theorem Inv.writeBytes {s : State} (hs : s.Inv) {a : Nat} {bs : List Byte} (h : a + bs.length ≤ 4096) :
    State.Inv { s with mem := s.mem.writeBytes a bs } := by
  obtain ⟨hmem, hpc, hslots⟩ := hs
  exact ⟨Memory.wf_writeBytes hmem bs h, hpc, hslots⟩

end State

/-- An address plus a register value is at most 4095 + 255, the bound of R26 (R171). -/
theorem toNat_addressOperand_add_le (nnn : BitVec 12) (b : Byte) :
    (addressOperand nnn + b.setWidth 16).toNat ≤ 4350 := by
  have := nnn.isLt
  have := b.isLt
  rw [BitVec.toNat_add, toNat_addressOperand, BitVec.toNat_setWidth]
  omega

/-- Every handler that completes, on a `pc` that could be fetched from, keeps the invariant. -/
theorem exec_keeps_inv {i : Instr} {s t : State} (hs : s.Inv) (hpc : s.pc.toNat ≤ 4094) (h : exec i s = .next t) :
    t.Inv := by
  cases i with
  | jp nnn =>
    injection h with h
    subst h
    refine hs.setPc ?_
    rw [toNat_addressOperand]
    omega
  | jpV0 nnn =>
    injection h with h
    subst h
    exact hs.setPc (toNat_addressOperand_add_le nnn _)
  | call nnn =>
    obtain ⟨hsp, rfl⟩ := execCall_next h
    refine (hs.push hpc hsp).setPc ?_
    rw [toNat_addressOperand]
    omega
  | ret =>
    obtain ⟨hsp, rfl⟩ := execRet_next h
    exact hs.pop.setPc ((hs.top_add_two_le hsp).trans (by decide))
  | ldB x =>
    obtain ⟨hin, rfl⟩ := accessing_next h
    refine .advance (hs.writeBytes ?_) hpc
    rw [length_decimalDigits]
    omega
  | storeRegs x =>
    obtain ⟨hin, rfl⟩ := accessing_next h
    refine .advance (.congr (hs.writeBytes (a := s.i.toNat) (bs := s.regsUpTo x) ?_) rfl rfl rfl) hpc
    rw [length_regsUpTo]
    omega
  | seImm | sneImm | seReg | sneReg =>
    injection h with h
    subst h
    exact hs.skipIf hpc _
  | skp =>
    obtain ⟨c, rfl⟩ := execSkp_next h
    exact hs.skipIf hpc c
  | sknp =>
    obtain ⟨c, rfl⟩ := execSknp_next h
    exact hs.skipIf hpc c
  | ldVxK =>
    obtain rfl | ⟨k, -, hk⟩ := execLdVxK_next h
    · exact hs
    · injection hk with hk
      subst hk
      exact .advance (hs.congr rfl rfl rfl) hpc
  | drw | loadRegs =>
    obtain ⟨-, rfl⟩ := accessing_next h
    exact .advance (hs.congr rfl rfl rfl) hpc
  | cls | ldImm | addImm | ldReg | orReg | andReg | xorReg | addReg | sub | shr | subn | shl | ldI | rnd | ldVxDt
  | ldDtVx | addI | ldF =>
    injection h with h
    subst h
    exact .advance (hs.congr rfl rfl rfl) hpc

/-- Settles O41: a completed cycle is a handler from an in-range `pc`, which keeps the invariant (`exec_keeps_inv`),
and a tick, which the invariant does not see. -/
theorem stepKeepsInvariant : Obligations.StepKeepsInvariant := by
  intro s t hs h
  obtain ⟨i, u, hpc, -, hexec, rfl⟩ := step_next h
  exact (exec_keeps_inv hs hpc hexec).congr rfl rfl rfl

/-- Settles O42: the reset state's `pc` is 512 and its slots hold 0 (R37). -/
theorem resetHasInvariant : Obligations.ResetHasInvariant :=
  ⟨Memory.wf_reset, by decide, by decide⟩

end Sys2Proof.Machine
end

section
/-!
PROOFS. The statements of spec/20_memory.md: the end of the address space, where the fetch reports (R70).
-/

namespace Sys2Proof.Machine

/-- The range check comes before any read of memory, so the record holds `pc` alone (R70, R256). -/
theorem State.fetch_of_pc_gt {s : State} (hpc : 4094 < s.pc.toNat) :
    s.fetch = .error (.fetchRange ⟨s.pc, 0, 0⟩) := if_pos hpc

/-- A cycle whose fetch reports runs no handler and no tick (R120, R128). -/
theorem step_of_fetch_error {s : State} {f : Fault} (h : s.fetch = .error f) : step s = .fault f := by
  simp only [step, h]

/-- Settles O9: the fetch's range check fails (`State.fetch_of_pc_gt`), and its report is the whole cycle. -/
theorem fetchOutOfRangeIsReported : Obligations.FetchOutOfRangeIsReported :=
  fun _ hpc => step_of_fetch_error (State.fetch_of_pc_gt hpc)

end Sys2Proof.Machine
end

section
/-!
PROOFS. The statements of spec/30_encoding.md: what the decoder answers, family by family (R94, R95), the round trip
with the encoder (R103), the rows of the opcode map (R96) and the unrecognised words (R97).
-/

namespace Sys2Proof

/-! ## The families with a sub-code (spec/30_encoding.md R95) -/

theorem decode_family0 {w : Word} (h : fieldOp w = 0x0) : decode w = decodeFamily0 w := by simp [decode, h]

theorem decode_family8 {w : Word} (h : fieldOp w = 0x8) : decode w = decodeFamily8 w := by simp [decode, h]

theorem decode_familyE {w : Word} (h : fieldOp w = 0xE) : decode w = decodeFamilyE w := by simp [decode, h]

theorem decode_familyF {w : Word} (h : fieldOp w = 0xF) : decode w = decodeFamilyF w := by simp [decode, h]

/-! ## The round trip (R103) -/

/-- The fields of an encoded word are the operands, and its `OP` and sub-code select the instruction's own branch. -/
theorem decode_encode (i : Instr) : decode (encode i) = .instr i := by
  cases i with
  | cls | ret => rfl
  | jp | call | ldI | jpV0 | seImm | sneImm | ldImm | addImm | rnd | seReg | sneReg | drw => simp [encode, decode]
  | ldReg | orReg | andReg | xorReg | addReg | sub | shr | subn | shl =>
    simp [encode, decode_family8, decodeFamily8]
  | skp | sknp => simp [encode, decode_familyE, decodeFamilyE]
  | ldVxDt | ldVxK | ldDtVx | addI | ldF | ldB | storeRegs | loadRegs => simp [encode, decode_familyF, decodeFamilyF]

/-- Settles O1, constructor by constructor (`decode_encode`). -/
theorem decodeEncodeRoundTrip : Obligations.DecodeEncodeRoundTrip := decode_encode

/-- Settles O4: the first level reads `OP` alone, family 0 the low byte alone. -/
theorem unexaminedBitsAreIgnored : Obligations.UnexaminedBitsAreIgnored := by
  refine ⟨fun z => ⟨?_, ?_⟩, fun x y z => ⟨?_, ?_⟩⟩
  · simp [decode_family0, decodeFamily0]
  · simp [decode_family0, decodeFamily0]
  · simp [decode]
  · simp [decode]

/-- Settles O5: the decoder evaluated at the twelve words. -/
theorem sampleWordsDecode : Obligations.SampleWordsDecode := by
  unfold Obligations.SampleWordsDecode
  decide

/-! ## The unrecognised words (R97) -/

theorem decodeFamily0_eq_unknown (w : Word) : decodeFamily0 w = .unknown w ↔ fieldNN w ∉ [0xE0, 0xEE] := by
  unfold decodeFamily0
  split <;> simp_all [← BitVec.toNat_inj]

theorem decodeFamily8_eq_unknown (w : Word) :
    decodeFamily8 w = .unknown w ↔ fieldN w ∈ [0x8, 0x9, 0xA, 0xB, 0xC, 0xD, 0xF] := by
  have hlt : (fieldN w).toNat < 16 := (fieldN w).isLt
  unfold decodeFamily8
  split <;> simp [← BitVec.toNat_inj, *]
  grind

theorem decodeFamilyE_eq_unknown (w : Word) : decodeFamilyE w = .unknown w ↔ fieldNN w ∉ [0x9E, 0xA1] := by
  unfold decodeFamilyE
  split <;> simp_all [← BitVec.toNat_inj]

theorem decodeFamilyF_eq_unknown (w : Word) :
    decodeFamilyF w = .unknown w ↔ fieldNN w ∉ [0x07, 0x0A, 0x15, 0x1E, 0x29, 0x33, 0x55, 0x65] := by
  unfold decodeFamilyF
  split <;> simp_all [← BitVec.toNat_inj]

/-- Settles O3: twelve families answer an instruction on every word, the other four are unrecognised by their
sub-code. -/
theorem unrecognisedWordsAreThoseListed : Obligations.UnrecognisedWordsAreThoseListed := by
  intro w
  rw [← decodeFamily0_eq_unknown, ← decodeFamily8_eq_unknown, ← decodeFamilyE_eq_unknown, ← decodeFamilyF_eq_unknown]
  have hlt : (fieldOp w).toNat < 16 := (fieldOp w).isLt
  unfold decode
  split
  case h_16 =>
    have hop : (fieldOp w).toNat = 15 := by grind
    simp [← BitVec.toNat_inj, hop]
  all_goals simp [← BitVec.toNat_inj, *]

/-! ## The rows of the opcode map (R96) -/

/-- An instruction of each row, in the order of the table. -/
def rowInstrs : List Instr :=
  [.cls, .ret, .jp 0, .call 0, .seImm 0 0, .sneImm 0 0, .seReg 0 0, .ldImm 0 0, .addImm 0 0, .ldReg 0 0, .orReg 0 0,
   .andReg 0 0, .xorReg 0 0, .addReg 0 0, .sub 0 0, .shr 0 0, .subn 0 0, .shl 0 0, .sneReg 0 0, .ldI 0, .jpV0 0,
   .rnd 0 0, .drw 0 0 0, .skp 0, .sknp 0, .ldVxDt 0, .ldVxK 0, .ldDtVx 0, .addI 0, .ldF 0, .ldB 0, .storeRegs 0,
   .loadRegs 0]

theorem opcodeRows_eq_map : opcodeRows = rowInstrs.map opRow := rfl

/-- Every row of the map is the row of an instruction. -/
theorem exists_opRow_eq {row : Word × Word} (h : row ∈ opcodeRows) : ∃ i, opRow i = row := by
  rw [opcodeRows_eq_map] at h
  obtain ⟨i, -, hi⟩ := List.mem_map.mp h
  exact ⟨i, hi⟩

theorem opRow_mem_opcodeRows (i : Instr) : opRow i ∈ opcodeRows := by
  cases i <;> simp [opRow, opcodeRows, opcodeRowsLow, opcodeRows8, opcodeRowsHigh]

/-- A word selects a row of mask `F000` by the number of its `OP`. -/
theorem selects_F000_of_toNat {w : Word} {op : Nat} (hop : (fieldOp w).toNat = op) :
    selects w (encodeA (.ofNat 4 op) 0, 0xF000) :=
  (selects_F000 w _).mpr (by simp [← hop])

/-- A word selects a row of mask `F00F` by the numbers of its `OP` and `N`. -/
theorem selects_F00F_of_toNat {w : Word} {op : BitVec 4} {n : Nat} (hop : fieldOp w = op)
    (hn : (fieldN w).toNat = n) : selects w (encodeXYN op 0 0 (.ofNat 4 n), 0xF00F) :=
  (selects_F00F w _ _).mpr ⟨hop, by simp [← hn]⟩

/-- A word selects a row of mask `F0FF` by the numbers of its `OP` and `NN`. -/
theorem selects_F0FF_of_toNat {w : Word} {op : BitVec 4} {nn : Nat} (hop : fieldOp w = op)
    (hnn : (fieldNN w).toNat = nn) : selects w (encodeXI op 0 (.ofNat 8 nn), 0xF0FF) :=
  (selects_F0FF w _ _).mpr ⟨hop, by simp [← hnn]⟩

theorem selects_of_decodeFamily0 {w : Word} {i : Instr} (hop : fieldOp w = 0x0) (h : decodeFamily0 w = .instr i) :
    selects w (opRow i) := by
  unfold decodeFamily0 at h
  split at h <;> cases h
  all_goals exact (selects_F0FF_of_toNat hop ‹_› :)

theorem selects_of_decodeFamily8 {w : Word} {i : Instr} (hop : fieldOp w = 0x8) (h : decodeFamily8 w = .instr i) :
    selects w (opRow i) := by
  unfold decodeFamily8 at h
  split at h <;> cases h
  all_goals exact (selects_F00F_of_toNat hop ‹_› :)

theorem selects_of_decodeFamilyE {w : Word} {i : Instr} (hop : fieldOp w = 0xE) (h : decodeFamilyE w = .instr i) :
    selects w (opRow i) := by
  unfold decodeFamilyE at h
  split at h <;> cases h
  all_goals exact (selects_F0FF_of_toNat hop ‹_› :)

theorem selects_of_decodeFamilyF {w : Word} {i : Instr} (hop : fieldOp w = 0xF) (h : decodeFamilyF w = .instr i) :
    selects w (opRow i) := by
  unfold decodeFamilyF at h
  split at h <;> cases h
  all_goals exact (selects_F0FF_of_toNat hop ‹_› :)

/-- A decoded word selects the row of its instruction: its branch tested the row's `OP` and sub-code. -/
theorem selects_of_decode {w : Word} {i : Instr} (h : decode w = .instr i) : selects w (opRow i) := by
  have hlt : (fieldOp w).toNat < 16 := (fieldOp w).isLt
  unfold decode at h
  split at h
  case h_1 hop => exact selects_of_decodeFamily0 (BitVec.eq_of_toNat_eq hop) h
  case h_9 hop => exact selects_of_decodeFamily8 (BitVec.eq_of_toNat_eq hop) h
  case h_15 hop => exact selects_of_decodeFamilyE (BitVec.eq_of_toNat_eq hop) h
  case h_16 =>
    have hop : (fieldOp w).toNat = 15 := by grind
    exact selects_of_decodeFamilyF (BitVec.eq_of_toNat_eq hop) h
  all_goals
    cases h
    exact (selects_F000_of_toNat ‹_› :)

/-- A word that selects a row of mask `F000` has the `OP` of the row's match. -/
theorem fieldOp_of_selects_F000 {w m : Word} (h : selects w (m, 0xF000)) : fieldOp w = fieldOp m := by
  have hm : w &&& 0xF000 = m := h
  rw [← hm, and_F000, fieldOp_encodeA]

/-- A word that selects a row of mask `F00F` has the `OP` and `N` of the row's match. -/
theorem fields_of_selects_F00F {w m : Word} (h : selects w (m, 0xF00F)) :
    fieldOp w = fieldOp m ∧ fieldN w = fieldN m := by
  have hm : w &&& 0xF00F = m := h
  rw [← hm, and_F00F, fieldOp_encodeXYN, fieldN_encodeXYN]
  exact ⟨rfl, rfl⟩

/-- A word that selects a row of mask `F0FF` has the `OP` and `NN` of the row's match. -/
theorem fields_of_selects_F0FF {w m : Word} (h : selects w (m, 0xF0FF)) :
    fieldOp w = fieldOp m ∧ fieldNN w = fieldNN m := by
  have hm : w &&& 0xF0FF = m := h
  rw [← hm, and_F0FF, fieldOp_encodeXI, fieldNN_encodeXI]
  exact ⟨rfl, rfl⟩

/-- The fields under a row's mask are all that the decoder reads to choose the row; the operands are the word's own. -/
theorem exists_decode_of_selects {w : Word} {i : Instr} (h : selects w (opRow i)) :
    ∃ j, decode w = .instr j ∧ opRow j = opRow i := by
  cases i with
  | jp | call | seImm | sneImm | seReg | ldImm | addImm | sneReg | ldI | jpV0 | rnd | drw =>
    have hop := fieldOp_of_selects_F000 h
    exact ⟨_, by rw [decode, hop]; rfl, by rfl⟩
  | ldReg | orReg | andReg | xorReg | addReg | sub | shr | subn | shl =>
    obtain ⟨hop, hn⟩ := fields_of_selects_F00F h
    exact ⟨_, by rw [decode_family8 hop, decodeFamily8, hn]; rfl, by rfl⟩
  | cls | ret =>
    obtain ⟨hop, hnn⟩ := fields_of_selects_F0FF h
    exact ⟨_, by rw [decode_family0 hop, decodeFamily0, hnn]; rfl, by rfl⟩
  | skp | sknp =>
    obtain ⟨hop, hnn⟩ := fields_of_selects_F0FF h
    exact ⟨_, by rw [decode_familyE hop, decodeFamilyE, hnn]; rfl, by rfl⟩
  | ldVxDt | ldVxK | ldDtVx | addI | ldF | ldB | storeRegs | loadRegs =>
    obtain ⟨hop, hnn⟩ := fields_of_selects_F0FF h
    exact ⟨_, by rw [decode_familyF hop, decodeFamilyF, hnn]; rfl, by rfl⟩

/-- Settles O2: a decoded word selects its instruction's row (`selects_of_decode`), and a word that selects a row, which
is some instruction's (`exists_opRow_eq`), decodes into it (`exists_decode_of_selects`). -/
theorem decodeSelectsExactlyOneRow : Obligations.DecodeSelectsExactlyOneRow := by
  refine ⟨rfl, fun w i h => ⟨opRow_mem_opcodeRows i, selects_of_decode h⟩, fun w row hrow hsel => ?_⟩
  obtain ⟨i, rfl⟩ := exists_opRow_eq hrow
  exact exists_decode_of_selects hsel

end Sys2Proof
end

section
/-!
PROOFS. The statements of spec/40_fetch_dispatch.md: the fetched word (R121), the cycle around a handler (R120), the
timer tick at its end (R127, R129), the random input (R130) and the end-of-program convention (R131).
-/

namespace Sys2Proof.Machine

/-! ## The fetch and the cycle (spec/40_fetch_dispatch.md R120, R121) -/

/-- Settles O6: the fetched word is the big-endian word of the two bytes at `pc` (`toNat_wordOfBytes`). -/
theorem fetchIsBigEndian : Obligations.FetchIsBigEndian :=
  fun _ => toNat_wordOfBytes _ _

/-- The tick as R127 words it. The model tests `DT > 0` on numbers; this tests `DT = 0` on bytes. -/
theorem State.tick_eq (s : State) : s.tick = { s with dt := if s.dt = 0 then 0 else s.dt - 1 } := by
  by_cases h : s.dt = 0
  · simp [State.tick, h]
  · have hpos : s.dt.toNat > 0 := by bv_omega
    rw [State.tick, if_pos hpos, if_neg h]

/-- Settles O7: the cycle is the handler and its completion (`step_of_decode`), and completion ticks a next state
alone. -/
theorem stepRunsDecodedInstruction : Obligations.StepRunsDecodedInstruction := by
  intro s i hpc hd
  rw [step_of_decode hpc hd]
  refine ⟨fun t ht => ?_, fun f hf => ?_, fun r hr => ?_⟩
  · rw [ht, ← State.tick_eq, completeCycle]
  · rw [hf, completeCycle]
  · rw [hr, completeCycle]

/-- A table word decodes as the 16-bit word of its low `nbits` bits does. -/
theorem decode_of_decodeTableWord {nbits w : Nat} {i : Instr} (h : decodeTableWord nbits w = some i) :
    decode (BitVec.ofNat 16 (w % 2 ^ nbits)) = .instr i := by
  simp only [decodeTableWord, decodeBytes, wordOfBytes_split] at h
  split at h
  next j hj => rw [hj, Option.some.inj h]
  next => cases h

/-- Placing a word writes no `pc`. -/
@[simp] theorem State.withFetchWord_pc (s : State) (nbits w : Nat) : (s.withFetchWord nbits w).pc = s.pc := by
  unfold State.withFetchWord
  split <;> rfl

/-- The word placed at an in-range `pc` is the word fetched from it (R64, R121). -/
theorem State.fetchWord_withFetchWord {s : State} (hpc : s.pc.toNat ≤ 4094) (nbits w : Nat) :
    (s.withFetchWord nbits w).fetchWord = BitVec.ofNat 16 (w % 2 ^ nbits) := by
  rw [State.withFetchWord, if_neg (Nat.not_lt.mpr hpc), fetchWord_placeWord]

/-- Settles O10: the placed word is fetched (`State.fetchWord_withFetchWord`) and decodes to the instruction, so the
cycle runs it (`step_of_decode`). -/
theorem placedWordIsRunNext : Obligations.PlacedWordIsRunNext := by
  intro s nbits w i hpc h
  refine step_of_decode ?_ ?_
  · rwa [State.withFetchWord_pc]
  · rw [State.fetchWord_withFetchWord hpc, decode_of_decodeTableWord h]

/-! ## The timer tick (spec/40_fetch_dispatch.md R127, R129) -/

/-- `FX15` is the only instruction that writes `DT` (R33). -/
theorem timer_notMem_writesParts {i : Instr} (h : ∀ x, i ≠ .ldDtVx x) : Part.timer ∉ writesParts i := by
  cases i with
  | ldDtVx x => exact absurd rfl (h x)
  | _ => simp [writesParts]

/-- A handler other than `FX15`'s leaves `DT`. -/
theorem exec_dt {i : Instr} {s t : State} (hi : ∀ x, i ≠ .ldDtVx x) (h : exec i s = .next t) : t.dt = s.dt := by
  obtain ⟨-, hparts⟩ := exec_frame h
  exact hparts .timer (timer_notMem_writesParts hi)

/-- Settles O33: the tick saturates (`tick_toNat`) and acts on the `DT` the handler left, which is `V[X]` after `FX15`
and the old one otherwise (`exec_dt`); `FX07` reads it before the tick. -/
theorem everyCompletedCycleTicks : Obligations.EveryCompletedCycleTicks := by
  intro s t i hd h
  obtain ⟨j, u, -, hj, hexec, rfl⟩ := step_next h
  obtain rfl : i = j := Decoded.instr.inj (hd.symm.trans hj)
  refine ⟨fun x hx => ?_, fun x hx => ?_, fun hx => ?_⟩
  · subst hx
    obtain ⟨hread, -, -⟩ := writeReg_next hexec
    exact hread
  · subst hx
    injection hexec with hu
    rw [tick_toNat, ← hu, State.advance_dt]
  · rw [tick_toNat, exec_dt hx hexec]

/-- A completed cycle that does not execute `FX15` takes 1 from `DT`, or leaves it 0 (R127). -/
theorem step_dt_toNat {s t : State} (hd : ∀ x, decode s.fetchWord ≠ .instr (.ldDtVx x)) (h : step s = .next t) :
    t.dt.toNat = s.dt.toNat - 1 := by
  obtain ⟨i, u, -, hi, -, -⟩ := step_next h
  obtain ⟨-, -, hother⟩ := everyCompletedCycleTicks s t i hi h
  exact hother fun x hx => hd x (hx ▸ hi)

/-- Settles O34, by induction on the number of cycles: each takes 1 from `DT` (`step_dt_toNat`), and what the host does
before the next keeps it. -/
theorem timerCountsInstructions : Obligations.TimerCountsInstructions := by
  intro k run hrun
  induction k with
  | zero => rfl
  | succ k ih =>
    have hk := ih fun j hj => hrun j (Nat.lt_succ_of_lt hj)
    obtain ⟨⟨t, hstep, hdt⟩, hd⟩ := hrun k k.lt_succ_self
    rw [hdt, step_dt_toNat hd hstep, hk, Nat.sub_sub]

/-! ## The random input (spec/40_fetch_dispatch.md R130) -/

/-- `EX9E` completes exactly when `V[X]` names a key, and skips if it is held (R200). -/
theorem execSkp_eq_next {x : BitVec 4} {s t : State} :
    execSkp x s = .next t ↔ ∃ k, keyIndex (s.getV x) = some k ∧ s.skipIf (s.keyHeld k) = t := by
  cases hk : keyIndex (s.getV x) <;> simp [execSkp, hk, report]

/-- `EXA1` completes exactly when `V[X]` names a key, and skips if it is not held (R201). -/
theorem execSknp_eq_next {x : BitVec 4} {s t : State} :
    execSknp x s = .next t ↔ ∃ k, keyIndex (s.getV x) = some k ∧ s.skipIf (!s.keyHeld k) = t := by
  cases hk : keyIndex (s.getV x) <;> simp [execSknp, hk, report]

/-- `FX0A` waits exactly when the scan finds no key, and records the key it finds (R202). -/
theorem execLdVxK_eq_next {x : BitVec 4} {s t : State} :
    execLdVxK x s = .next t ↔ s.lastHeldKey = none ∧ s = t ∨
      ∃ k, s.lastHeldKey = some k ∧ (s.setV x (BitVec.ofNat 8 k)).advance = t := by
  cases hk : s.lastHeldKey <;> simp [execLdVxK, hk]

/-- A handler other than `CXNN`'s that completes does so at every position of the random input, with the same next
state but for the position, which it keeps: what its branches test is not the position (R130). -/
theorem exec_draws {i : Instr} {s t : State} (hi : ∀ x nn, i ≠ .rnd x nn) (h : exec i s = .next t) (n : Nat) :
    exec i { s with draws := n } = .next { t with draws := n } := by
  cases i with
  | rnd x nn => exact absurd rfl (hi x nn)
  | ret =>
    obtain ⟨hsp, rfl⟩ := execRet_next h
    exact dif_pos hsp
  | call =>
    obtain ⟨hsp, rfl⟩ := execCall_next h
    exact dif_pos hsp
  | skp =>
    obtain ⟨k, hk, rfl⟩ := execSkp_eq_next.mp h
    exact execSkp_eq_next.mpr ⟨k, hk, rfl⟩
  | sknp =>
    obtain ⟨k, hk, rfl⟩ := execSknp_eq_next.mp h
    exact execSknp_eq_next.mpr ⟨k, hk, rfl⟩
  | ldVxK =>
    obtain ⟨hk, rfl⟩ | ⟨k, hk, rfl⟩ := execLdVxK_eq_next.mp h
    · exact execLdVxK_eq_next.mpr (.inl ⟨hk, rfl⟩)
    · exact execLdVxK_eq_next.mpr (.inr ⟨k, hk, rfl⟩)
  | drw | ldB | storeRegs | loadRegs =>
    obtain ⟨hin, rfl⟩ := accessing_next h
    exact accessing_inside hin
  | cls | jp | seImm | sneImm | seReg | sneReg | ldImm | addImm | ldReg | orReg | andReg | xorReg | addReg | sub | shr
  | subn | shl | ldI | jpV0 | ldVxDt | ldDtVx | addI | ldF =>
    injection h with h
    subst h
    rfl

/-- Settles O47, handler by handler (`exec_draws`). -/
theorem randomInputReachesOnlyRnd : Obligations.RandomInputReachesOnlyRnd :=
  fun _ _ _ n hi h => exec_draws hi h n

/-! ## The end of a program (spec/40_fetch_dispatch.md R131) -/

/-- The handler of a jump to the instruction's own address changes nothing (R170). -/
theorem execJp_self {nnn : BitVec 12} {s : State} (h : nnn.toNat = s.pc.toNat) : execJp nnn s = .next s := by
  have hpc : addressOperand nnn = s.pc := BitVec.eq_of_toNat_eq ((toNat_addressOperand nnn).trans h)
  rw [execJp, hpc]

/-- Whether a program has ended does not depend on `DT`, so a tick leaves it ended. -/
theorem State.Ended.tick {s : State} (h : s.Ended) : s.tick.Ended := h

/-- Settles O49: the self-jump's handler changes nothing (`execJp_self`), so the tick is the whole cycle. -/
theorem endedProgramOnlyTicks : Obligations.EndedProgramOnlyTicks := by
  intro s hs
  have ⟨hpc, nnn, hd, hself⟩ := hs
  have hstep : step s = .next s.tick := by rw [step_of_decode hpc hd, exec, execJp_self hself, completeCycle]
  rw [← State.tick_eq]
  exact ⟨hstep, hs.tick⟩

end Sys2Proof.Machine
end

section
/-!
PROOFS. The statements of spec/41_register_alu.md: the register and ALU instructions (R140 to R151). Each is the law of
its handler's shape, a register write with or without the flag (R126), and an equation on numbers for the result and
for the flag.
-/

namespace Sys2Proof.Machine

/-! ## The two handler shapes (spec/40_fetch_dispatch.md R126) -/

/-- A handler that writes one register completes in every state. -/
theorem writeReg_completes (x : BitVec 4) (result : Byte) (s : State) :
    ∃ t, writeReg x result s = .next t ∧ t.getV x = result ∧ t.pc = s.pc + 2 ∧ Frame (· = x) [] s t :=
  ⟨_, rfl, writeReg_next rfl⟩

/-- A handler that writes a register and the flag completes in every state, with the two bytes as numbers. -/
theorem writeRegFlag_writesRegAndFlag (x : BitVec 4) (s : State) {result flag : Byte} {r f : Nat}
    (hr : result.toNat = r) (hf : flag.toNat = f) : WritesRegAndFlag x r f s (writeRegFlag x result flag s) := by
  obtain ⟨hreg, hflag, hpc, hframe⟩ := writeRegFlag_next (x := x) (result := result) (flag := flag) (s := s) rfl
  exact ⟨_, rfl, fun hx => by rw [hreg hx, hr], by rw [hflag, hf], hpc, hframe⟩

/-! ## Flags and differences as numbers (spec/00_scope.md R6, spec/10_state.md R23) -/

theorem toNat_flagCarry (x0 y0 : Byte) : (flagCarry x0 y0).toNat = if x0.toNat + y0.toNat > 255 then 1 else 0 := by
  simp [flagCarry, toNat_flagByte]

theorem toNat_flagNotBorrow (minuend subtrahend : Byte) :
    (flagNotBorrow minuend subtrahend).toNat = if minuend.toNat ≥ subtrahend.toNat then 1 else 0 := by
  simp [flagNotBorrow, toNat_flagByte]

/-- Bit 0 is the remainder of the halving (R148). -/
theorem toNat_flagShiftedRight (x0 : Byte) : (flagShiftedRight x0).toNat = x0.toNat % 2 := by
  rw [flagShiftedRight, toNat_flagByte, BitVec.getLsbD, Nat.testBit_zero]
  obtain h | h := Nat.mod_two_eq_zero_or_one x0.toNat <;> simp [h]

/-- Bit 7, the top bit, is what the doubling carries out (R150). -/
theorem toNat_flagShiftedLeft (x0 : Byte) : (flagShiftedLeft x0).toNat = x0.toNat / 128 := by
  have hlt : x0.toNat < 256 := x0.isLt
  have htop : x0.getLsbD 7 = decide (128 ≤ x0.toNat) := BitVec.msb_eq_decide x0
  rw [flagShiftedLeft, toNat_flagByte, htop]
  by_cases h : 128 ≤ x0.toNat <;> simp [h] <;> omega

/-- A difference of bytes, with the wrap from below written out (R147, R149). -/
theorem toNat_byte_sub (a b : Byte) : (a - b).toNat = (256 + a.toNat - b.toNat) % 256 := by
  bv_omega

/-! ## Register writes without a flag (spec/41_register_alu.md R140 to R142, R151) -/

/-- Settles O11: the handler writes `NN` (`writeReg_completes`). -/
theorem loadImmediateResult : Obligations.LoadImmediateResult :=
  fun x nn s => writeReg_completes x nn s

/-- Settles O12: the handler writes the sum of the two bytes, which wraps as the sum of the numbers does. -/
theorem addImmediateResult : Obligations.AddImmediateResult := by
  intro x nn s
  obtain ⟨t, ht, hread, hpc, hframe⟩ := writeReg_completes x (s.getV x + nn) s
  exact ⟨t, ht, by rw [hread, BitVec.toNat_add], hpc, hframe⟩

/-- Settles O13: the handler writes the old `V[Y]` (`writeReg_completes`). -/
theorem copyRegisterResult : Obligations.CopyRegisterResult :=
  fun x y s => writeReg_completes x (s.getV y) s

/-- Settles O18: the handler writes the masked byte after counting the draw, so its frame is the instruction's own
(`exec_frame`), and a bit outside the mask is cleared by it. -/
theorem randomByteUnderMask : Obligations.RandomByteUnderMask := by
  intro x nn s
  obtain ⟨t, ht, hread, hpc, -⟩ := writeReg_completes x (Config.rnd s.draws &&& nn) { s with draws := s.draws + 1 }
  have hdraws : t.draws = s.draws + 1 := by injection ht with ht; rw [← ht]; rfl
  refine ⟨t, ht, hread, fun k hk => ?_, hdraws, hpc, exec_frame (i := .rnd x nn) ht⟩
  rw [hread, BitVec.getLsbD_and, hk, Bool.and_false]

/-! ## Register writes with a flag (spec/41_register_alu.md R143 to R150) -/

/-- Settles O14: the bitwise operation on bytes is the one on numbers, and the flag written last is 0
(`writeRegFlag_writesRegAndFlag`). -/
theorem logicOperationsClearFlag : Obligations.LogicOperationsClearFlag := fun x _ s =>
  ⟨writeRegFlag_writesRegAndFlag x s (BitVec.toNat_or ..) rfl,
    writeRegFlag_writesRegAndFlag x s (BitVec.toNat_and ..) rfl,
    writeRegFlag_writesRegAndFlag x s (BitVec.toNat_xor ..) rfl⟩

/-- Settles O15: the sum of bytes wraps, and the flag tests the sum of numbers (`toNat_flagCarry`). -/
theorem addRegisterCarry : Obligations.AddRegisterCarry := fun x _ s =>
  writeRegFlag_writesRegAndFlag x s (BitVec.toNat_add ..) (toNat_flagCarry ..)

/-- Settles O16: each operand order is a wrapping difference (`toNat_byte_sub`) and its comparison
(`toNat_flagNotBorrow`). -/
theorem subtractNotBorrow : Obligations.SubtractNotBorrow := fun x _ s =>
  ⟨writeRegFlag_writesRegAndFlag x s (toNat_byte_sub ..) (toNat_flagNotBorrow ..),
    writeRegFlag_writesRegAndFlag x s (toNat_byte_sub ..) (toNat_flagNotBorrow ..)⟩

/-- Settles O17: a shift by one halves or doubles the byte, and the bit shifted out is the remainder
(`toNat_flagShiftedRight`) or the carry (`toNat_flagShiftedLeft`). -/
theorem shiftsCaptureBitOut : Obligations.ShiftsCaptureBitOut := by
  intro x y s
  have hhalf : (s.getV x >>> 1).toNat = (s.getV x).toNat / 2 := by
    rw [BitVec.toNat_ushiftRight, Nat.shiftRight_one]
  have hdouble : (s.getV x <<< 1).toNat = (s.getV x).toNat * 2 % 256 := by
    rw [BitVec.toNat_shiftLeft, Nat.shiftLeft_eq, pow_one]
  exact ⟨writeRegFlag_writesRegAndFlag x s hhalf (toNat_flagShiftedRight _),
    writeRegFlag_writesRegAndFlag x s hdouble (toNat_flagShiftedLeft _)⟩

end Sys2Proof.Machine
end

section
/-!
PROOFS. The statements of spec/42_control_flow.md: jumps (R170, R171), the call and its return (R172, R173, R179), and
the compare skips (R174 to R177).
-/

namespace Sys2Proof.Machine

/-! ## Jumps (spec/42_control_flow.md R170, R171) -/

/-- The target of `BNNN` is at most 4095 + 255, so the 16-bit sum is the sum of the numbers (R171). -/
theorem toNat_addressOperand_add (nnn : BitVec 12) (b : Byte) :
    (addressOperand nnn + b.setWidth 16).toNat = nnn.toNat + b.toNat := by
  have := nnn.isLt
  have := b.isLt
  rw [BitVec.toNat_add, toNat_addressOperand, BitVec.toNat_setWidth]
  omega

/-- Settles O19: each jump writes `pc` alone (`frame_pc`), with its target as a number. -/
theorem jumpTargets : Obligations.JumpTargets := fun nnn s =>
  ⟨⟨_, rfl, toNat_addressOperand nnn, frame_pc s _⟩, ⟨_, rfl, toNat_addressOperand_add nnn _, frame_pc s _⟩⟩

/-! ## Calls and returns (spec/42_control_flow.md R172, R173, R179) -/

/-- Below 16 nested calls, a call pushes and jumps (R172). -/
theorem execCall_of_sp_lt {s : State} (nnn : BitVec 12) (hsp : s.sp.val < 16) :
    execCall nnn s = .next { s.push hsp with pc := addressOperand nnn } := dif_pos hsp

/-- On a full stack, a call reports (R253). -/
theorem execCall_of_full {s : State} (nnn : BitVec 12) (hsp : s.sp.val = 16) :
    execCall nnn s = .fault (.stackOverflow ⟨s.pc, s.fetchWord, 16⟩) := dif_neg (by omega)

/-- On a stack that is not empty, a return pops and goes on after the call (R173). -/
theorem execRet_of_sp_pos {s : State} (hsp : 0 < s.sp.val) :
    execRet s = .next { s.pop with pc := s.top hsp + 2 } := dif_pos hsp

/-- On an empty stack, a return reports (R254). -/
theorem execRet_of_empty {s : State} (hsp : s.sp.val = 0) :
    execRet s = .fault (.stackUnderflow ⟨s.pc, s.fetchWord, 0⟩) := dif_neg (by omega)

/-- The slot a push writes holds the pushed address (R172). -/
theorem push_stack_same {s : State} (hsp : s.sp.val < 16) : (s.push hsp).stack[s.sp.val] = s.pc :=
  Vector.getElem_set_self hsp

/-- Every other slot is as it was (R172). -/
theorem push_stack_other {s : State} (hsp : s.sp.val < 16) {j : Fin 16} (hj : j.val ≠ s.sp.val) :
    (s.push hsp).stack[j] = s.stack[j] :=
  Vector.getElem_set_ne hsp j.isLt hj.symm

/-- Settles O20: `SP` decides between the two answers of the handler, and the completed one is a push
(`push_stack_same`, `push_stack_other`, `push_frame`) and a jump. -/
theorem callPushesItsAddress : Obligations.CallPushesItsAddress := by
  refine fun nnn s => ⟨fun hsp => ?_, fun hfull => execCall_of_full nnn hfull⟩
  exact ⟨_, execCall_of_sp_lt nnn hsp, push_stack_same hsp, fun _ hj => push_stack_other hsp hj, rfl,
    toNat_addressOperand nnn, (push_frame s hsp).setPc _⟩

/-- Settles O21: `SP` decides between the two answers of the handler, and the completed one is a pop (`pop_frame`) and
a jump past the call. -/
theorem returnPopsAndAdvances : Obligations.ReturnPopsAndAdvances := by
  refine fun s => ⟨fun hsp => ?_, fun hempty => execRet_of_empty hempty⟩
  exact ⟨_, execRet_of_sp_pos hsp, rfl, Nat.sub_add_cancel hsp, rfl, (pop_frame s).setPc _⟩

/-- Settles O22: the call leaves `SP` one above the slot it wrote, so the return pops that slot
(`returnPopsAndAdvances`), whatever the other slots hold. -/
theorem callReturnRoundTrip : Obligations.CallReturnRoundTrip := by
  intro nnn s t u hcall husp hslot
  obtain ⟨hsp, rfl⟩ := execCall_next hcall
  have hval : u.sp.val = s.sp.val + 1 := congrArg Fin.val husp
  obtain ⟨hpops, -⟩ := returnPopsAndAdvances u
  obtain ⟨r, hret, hpc, hrsp, -, -⟩ := hpops (by omega)
  have htop : u.stack[u.sp.val - 1]? = some s.pc := by rwa [hval, Nat.add_sub_cancel]
  obtain ⟨_, htop⟩ := Vector.getElem?_eq_some_iff.mp htop
  exact ⟨r, hret, by rw [hpc, htop], Fin.ext (by omega)⟩

/-! ## Compare skips (spec/42_control_flow.md R174 to R177) -/

/-- A handler that skips on a test has the result of a skip on the condition the test decides (R26 (e)). -/
theorem skips_skipIf {c : Bool} {p : Prop} (hc : c = true ↔ p) (s : State) : Skips p s (.next (s.skipIf c)) :=
  ⟨_, rfl, fun hp => if_pos (hc.mpr hp), fun hp => if_neg (mt hc.mp hp), skipIf_frame s c⟩

/-- Settles O23: each handler skips (`skips_skipIf`) on the Boolean test of its comparison. -/
theorem skipsCompareRegisters : Obligations.SkipsCompareRegisters := fun _ _ _ s =>
  ⟨skips_skipIf beq_iff_eq s, skips_skipIf bne_iff_ne s, skips_skipIf beq_iff_eq s, skips_skipIf bne_iff_ne s⟩

end Sys2Proof.Machine
end

section
/-!
PROOFS. The statements of spec/43_sprite_display.md: the clear screen (R192), what a draw does to every cell (R193), and
its derived facts (R194). A draw that completes leaves the framebuffer and the collision of `spriteDrawn`, whose cells
`spriteDrawn_spec` gives; each derived fact is one about the cells a sprite covers.
-/

namespace Sys2Proof.Machine

/-! ## Clear screen (spec/43_sprite_display.md R192) -/

/-- Settles O24: the handler completes in every state, every cell of the cleared framebuffer is 0 (`fbCell_fbClear`),
and it writes the display alone (`exec_frame`). -/
theorem clearScreenResult : Obligations.ClearScreenResult := fun _ =>
  ⟨_, rfl, fun c _ => fbCell_fbClear c, rfl, rfl, exec_frame (i := .cls) rfl⟩

/-! ## What a draw does (spec/43_sprite_display.md R193) -/

/-- A draw whose sprite has no rows or lies in memory completes, with what it draws (R193). -/
theorem execDrw_completes (x y : BitVec 4) {n : BitVec 4} {s : State} (h : n.toNat = 0 ∨ s.i.toNat + n.toNat ≤ 4096) :
    ∃ t, execDrw x y n s = .next t ∧ t.fb = (spriteDrawn x y n s).fb ∧ t.redraw = true ∧
      t.getV 15#4 = flagByte (spriteDrawn x y n s).collision ∧ t.pc = s.pc + 2 ∧ Frame (· = 15#4) [.display] s t := by
  obtain ⟨t, hnext⟩ : ∃ t, execDrw x y n s = .next t := ⟨_, accessing_inside h⟩
  obtain ⟨-, hdrawn⟩ := execDrw_next hnext
  exact ⟨t, hnext, hdrawn⟩

/-- A flag is 1 exactly when what it records happened (R22). -/
theorem flagByte_eq_one_iff (b : Bool) : flagByte b = 1 ↔ b = true := by
  cases b <;> simp

/-- Settles O25: `N` and `I` decide between the two answers of the handler, and the completed one is what the cells
under the sprite say (`spriteDrawn_spec`). -/
theorem drawInvertsCoveredCells : Obligations.DrawInvertsCoveredCells := by
  intro x y n s covers
  obtain ⟨hcells, hcol⟩ := spriteDrawn_spec x y n s
  refine ⟨fun hin => ?_, fun ⟨hn, hout⟩ => accessing_outside ⟨hn, by omega⟩⟩
  obtain ⟨t, hexec, hfb, hredraw, hvf, hpc, hframe⟩ := execDrw_completes x y (n := n) (s := s) (by omega)
  refine ⟨t, hexec, fun k _ => hfb ▸ hcells k, fun hhit => ?_, fun hmiss => ?_, hredraw, hpc, hframe⟩
  · rw [hvf, hcol.mpr hhit, flagByte_true]
  · rw [hvf, Bool.eq_false_of_not_eq_true (mt hcol.mp hmiss), flagByte_false]

/-! ## Facts derived from the draw (spec/43_sprite_display.md R194) -/

/-- Settles O26: both draws cover the same cells, so a covered cell is inverted twice and any other never
(`spriteDrawn_spec`). -/
theorem drawTwiceRestores : Obligations.DrawTwiceRestores := by
  intro x y n s t u hst hfb hmem hi hx hy covers
  obtain ⟨hin, htfb, -⟩ := execDrw_next hst
  obtain ⟨r, hexec, hrfb, -, hvf, -⟩ := execDrw_completes x y (n := n) (s := u) (hi ▸ hin)
  obtain ⟨hfirst, -⟩ := spriteDrawn_spec x y n s
  obtain ⟨hsecond, hcol⟩ := spriteDrawn_spec x y n u
  rw [hx, hy, hmem, hi, hfb] at hsecond hcol
  rw [← htfb] at hfirst
  rw [← hrfb] at hsecond
  refine ⟨r, hexec, framebuffer_ext fun k _ => ?_, ?_⟩
  · by_cases hk : covers k
    · rw [(hsecond k).1 hk, (hfirst k).1 hk, Bool.not_not]
    · rw [(hsecond k).2 hk, (hfirst k).2 hk]
  · rw [hvf, flagByte_eq_one_iff, hcol]

/-- The cell of a pixel depends on the coordinates only through the linear start (R194 (c)). -/
theorem spriteCell_eq_of_start {x0 y0 x0' y0' : Nat} (h : (x0 + 64 * y0) % 2048 = (x0' + 64 * y0') % 2048) (r : Nat) :
    spriteCell x0 y0 r = spriteCell x0' y0' r := by
  funext c
  simp only [spriteCell, Config.fbWidth, Config.fbCells]
  omega

/-- So do the cells of a sprite's rows (R194 (c)). -/
theorem rowsCells_eq_of_start {x0 y0 x0' y0' : Nat} (h : (x0 + 64 * y0) % 2048 = (x0' + 64 * y0') % 2048) (r : Nat)
    (rows : List Byte) : rowsCells x0 y0 r rows = rowsCells x0' y0' r rows := by
  induction rows generalizing r with
  | nil => rfl
  | cons b rest ih => rw [rowsCells, rowsCells, ih, rowCells, rowCells, spriteCell_eq_of_start h]

/-- Settles O27: the two draws toggle the same list of cells (`rowsCells_eq_of_start`). -/
theorem drawDependsOnLinearStart : Obligations.DrawDependsOnLinearStart := by
  intro x y x' y' n s u t hfb hmem hi hstart hst
  have hdrawn : spriteDrawn x' y' n u = spriteDrawn x y n s := by
    rw [spriteDrawn, spriteDrawn, drawRows_eq, drawRows_eq, rowsCells_eq_of_start hstart, hfb, hmem, hi]
  obtain ⟨hin, htfb, -, htvf, -⟩ := execDrw_next hst
  obtain ⟨r, hexec, hrfb, -, hrvf, -⟩ := execDrw_completes x' y' (n := n) (s := u) (hi ▸ hin)
  exact ⟨r, hexec, by rw [hrfb, htfb, hdrawn], by rw [hrvf, htvf, hdrawn]⟩

/-- A row has at most eight cells under set bits. -/
theorem length_rowCells_le (x0 y0 r : Nat) (b : Byte) : (rowCells x0 y0 r b).length ≤ 8 := by
  rw [rowCells, List.length_map]
  exact List.length_filter_le ..

/-- A sprite has at most eight cells a row (R194 (d)). -/
theorem length_rowsCells_le (x0 y0 r : Nat) (rows : List Byte) : (rowsCells x0 y0 r rows).length ≤ 8 * rows.length := by
  induction rows generalizing r with
  | nil => simp [rowsCells]
  | cons b rest ih =>
    have hrow := length_rowCells_le x0 y0 r b
    have hrest := ih (r + 1)
    rw [rowsCells, List.length_append, List.length_cons]
    omega

/-- Settles O28: a cell that differs is one the sprite covers (`spriteDrawn_spec`), and the list of those has at most
eight entries a row (`length_rowsCells_le`). -/
theorem drawChangesAtMostItsPixels : Obligations.DrawChangesAtMostItsPixels := by
  intro x y n s t hst
  obtain ⟨-, hfb, -⟩ := execDrw_next hst
  obtain ⟨hcells, -⟩ := spriteDrawn_spec x y n s
  rw [← hfb] at hcells
  let rows := s.mem.readBytes s.i.toNat n.toNat
  have hsub : (List.range 2048).filter (fun k => fbCell t.fb k != fbCell s.fb k) ⊆
      rowsCells (s.getV x).toNat (s.getV y).toNat 0 rows := fun k hk => by
    have hne : fbCell t.fb k ≠ fbCell s.fb k := bne_iff_ne.mp (List.mem_filter.mp hk).2
    exact mem_rowsCells_iff_covers.mpr (not_not.mp (mt (hcells k).2 hne))
  calc ((List.range 2048).filter fun k => fbCell t.fb k != fbCell s.fb k).length
      ≤ (rowsCells (s.getV x).toNat (s.getV y).toNat 0 rows).length :=
        ((List.nodup_range.filter _).subperm hsub).length_le
    _ ≤ 8 * rows.length := length_rowsCells_le ..
    _ = 8 * n.toNat := by rw [Memory.length_readBytes]

end Sys2Proof.Machine
end

section
/-!
PROOFS. The statements of spec/44_keypad_timer_memory.md: the keypad (R200 to R202), the timer (R203, R204), the index
register (R205 to R207), and the bytes and registers stored at `I` and loaded from there (R208 to R210). Each handler
gets an equation per case, and its frame is the instruction's own (`exec_frame`).
-/

namespace Sys2Proof.Machine

/-! ## Keypad (spec/44_keypad_timer_memory.md R200 to R202) -/

/-- The key a register value of 15 or less names is held when its bit of `KEY` is set (R32, R200). -/
theorem keyHeld_setWidth (s : State) {x0 : Byte} (h : x0.toNat ≤ 15) :
    s.keyHeld (x0.setWidth 4) = s.key.getLsbD x0.toNat := by
  rw [State.keyHeld, toNat_keyIndex h]

/-- `EX9E` on a register that names a key (R200). -/
theorem execSkp_of_key {x : BitVec 4} {s : State} (h : (s.getV x).toNat ≤ 15) :
    execSkp x s = .next (s.skipIf (s.key.getLsbD (s.getV x).toNat)) :=
  execSkp_eq_next.mpr ⟨_, keyIndex_inside h, by rw [keyHeld_setWidth s h]⟩

/-- `EXA1` on a register that names a key (R201). -/
theorem execSknp_of_key {x : BitVec 4} {s : State} (h : (s.getV x).toNat ≤ 15) :
    execSknp x s = .next (s.skipIf (!s.key.getLsbD (s.getV x).toNat)) :=
  execSknp_eq_next.mpr ⟨_, keyIndex_inside h, by rw [keyHeld_setWidth s h]⟩

/-- `EX9E` on a register that names no key reports its value (R257). -/
theorem execSkp_of_no_key {x : BitVec 4} {s : State} (h : 15 < (s.getV x).toNat) :
    execSkp x s = .fault (.keyRange ⟨s.pc, s.fetchWord, (s.getV x).setWidth 16⟩) := by
  rw [execSkp, keyIndex_outside h, report]

/-- `EXA1` on a register that names no key reports its value (R257). -/
theorem execSknp_of_no_key {x : BitVec 4} {s : State} (h : 15 < (s.getV x).toNat) :
    execSknp x s = .fault (.keyRange ⟨s.pc, s.fetchWord, (s.getV x).setWidth 16⟩) := by
  rw [execSknp, keyIndex_outside h, report]

/-- `FX0A` completes whether or not the scan finds a key (R202). -/
theorem execLdVxK_completes (x : BitVec 4) (s : State) : ∃ t, execLdVxK x s = .next t := by
  cases hk : s.lastHeldKey with
  | none => exact ⟨s, execLdVxK_eq_next.mpr (.inl ⟨hk, rfl⟩)⟩
  | some k => exact ⟨_, execLdVxK_eq_next.mpr (.inr ⟨k, hk, rfl⟩)⟩

/-- Settles O30: whether `V[X]` names a key decides between a skip on that key (`skips_skipIf`) and the report, and
`FX0A` always completes (`execLdVxK_completes`). -/
theorem keySkips : Obligations.KeySkips := by
  refine fun x s =>
    ⟨fun hkey => ⟨?_, ?_⟩, fun hnone => ⟨execSkp_of_no_key hnone, execSknp_of_no_key hnone⟩, fun f => ?_⟩
  · rw [exec, execSkp_of_key hkey]
    exact skips_skipIf Iff.rfl s
  · rw [exec, execSknp_of_key hkey]
    exact skips_skipIf (Bool.not_eq_true' _).to_iff s
  · obtain ⟨t, ht⟩ := execLdVxK_completes x s
    simp [exec, ht]

/-- With no key held the scan finds none (R202). -/
theorem lastHeldKey_eq_none {s : State} (h : ∀ k, k < 16 → s.key.getLsbD k = false) : s.lastHeldKey = none := by
  cases hj : s.lastHeldKey with
  | none => rfl
  | some j =>
    obtain ⟨hlt, hheld, -⟩ := lastHeldKey_some hj
    simp [h j hlt] at hheld

/-- The scan finds a held key that no held key exceeds (R202). -/
theorem lastHeldKey_eq_some {s : State} {k : Nat} (hlt : k < 16) (hheld : s.key.getLsbD k = true)
    (hmax : ∀ j, j < 16 → s.key.getLsbD j = true → j ≤ k) : s.lastHeldKey = some k := by
  cases hj : s.lastHeldKey with
  | none => simp [lastHeldKey_none hj k hlt] at hheld
  | some j =>
    obtain ⟨hjlt, hjheld, hjmax⟩ := lastHeldKey_some hj
    rw [Nat.le_antisymm (hmax j hjlt hjheld) (hjmax k hlt hheld)]

/-- Settles O31: what is held decides what the scan finds (`lastHeldKey_eq_some`, `lastHeldKey_eq_none`); a key found is
a register write, and without one the tick is the whole cycle. -/
theorem waitForKeyRecordsHighest : Obligations.WaitForKeyRecordsHighest := by
  refine fun x s => ⟨fun k hlt hheld hmax => ?_, fun hnone => ?_⟩
  · obtain ⟨t, ht, hread, hpc, hframe⟩ := writeReg_completes x (BitVec.ofNat 8 k) s
    have hexec : execLdVxK x s = .next t := by rw [execLdVxK, lastHeldKey_eq_some hlt hheld hmax]; exact ht
    exact ⟨t, hexec, by rw [hread, BitVec.toNat_ofNat, Nat.mod_eq_of_lt (by omega)], hpc, hframe⟩
  · have hexec : exec (.ldVxK x) s = .next s := by rw [exec, execLdVxK, lastHeldKey_eq_none hnone]
    refine ⟨hexec, fun hpc hd => ?_⟩
    rw [step_of_decode hpc hd, hexec, completeCycle, State.tick_eq]

/-! ## Timer (spec/44_keypad_timer_memory.md R203, R204) -/

/-- Settles O32: `FX07` is a register write (`writeReg_completes`), and `FX15` writes the timer alone (`exec_frame`). -/
theorem timerReadAndSet : Obligations.TimerReadAndSet := fun x s =>
  ⟨writeReg_completes x s.dt s, _, rfl, rfl, rfl, exec_frame (i := .ldDtVx x) rfl⟩

/-! ## Index register (spec/44_keypad_timer_memory.md R205 to R207) -/

/-- Five times a byte fits a word (R207). -/
theorem toNat_five_mul_byte (b : Byte) : (5 * b.setWidth 16 : Word).toNat = 5 * b.toNat := by
  bv_omega

/-- Settles O35: both handlers write `I` alone (`exec_frame`), and neither value is truncated (`toNat_addressOperand`,
`toNat_five_mul_byte`). -/
theorem indexLoads : Obligations.IndexLoads := fun nnn x _ =>
  ⟨⟨_, rfl, toNat_addressOperand nnn, rfl, exec_frame (i := .ldI nnn) rfl⟩,
    _, rfl, toNat_five_mul_byte _, rfl, exec_frame (i := .ldF x) rfl⟩

/-- `I` plus a register value, truncated to 16 bits (R206). -/
theorem toNat_index_add (i0 : Word) (x0 : Byte) : (i0 + x0.setWidth 16).toNat = (i0.toNat + x0.toNat) % 65536 := by
  bv_omega

theorem toNat_flagIndexOverflow (i0 : Word) (x0 : Byte) :
    (flagIndexOverflow i0 x0).toNat = if i0.toNat + x0.toNat > 4095 then 1 else 0 := by
  simp [flagIndexOverflow, toNat_flagByte]

/-- Settles O36: the sum of words wraps (`toNat_index_add`), and the flag, written last, tests the sum of numbers
(`toNat_flagIndexOverflow`). -/
theorem indexAddOverflowFlag : Obligations.IndexAddOverflowFlag := by
  refine fun x s => ⟨_, rfl, toNat_index_add s.i _, ?_, rfl, exec_frame (i := .addI x) rfl⟩
  rw [State.getV_advance, State.getV_setFlag_vf, toNat_flagIndexOverflow]

/-! ## Stores and loads at `I` (spec/44_keypad_timer_memory.md R208 to R210) -/

/-- The byte at offset `j` of a multi-byte store (R64, R66). -/
theorem Memory.read_writeBytes_offset (m : Memory) (a : Nat) {j : Nat} {bs : List Byte} (h : j < bs.length) :
    (m.writeBytes a bs).read (a + j) = bs[j] := by
  have hin : a ≤ a + j ∧ a + j < a + bs.length := by omega
  simp [Memory.read_writeBytes, hin]

/-- A multi-byte store changes the bytes it stores alone (R63, R66). -/
theorem memSameOutside_writeBytes {s t : State} {a n : Nat} {bs : List Byte} (hn : bs.length = n)
    (ht : t.mem = s.mem.writeBytes a bs) : MemSameOutside a n s t := by
  intro b hb
  rw [ht, Memory.read_writeBytes_outside _ _ _ _ (hn ▸ hb)]

/-- The three bytes `FX33` stores, as numbers: each digit fits a byte (R208). -/
theorem toNat_decimalDigits (x0 : Byte) :
    (decimalDigits x0)[0].toNat = x0.toNat / 100 ∧ (decimalDigits x0)[1].toNat = x0.toNat / 10 % 10 ∧
      (decimalDigits x0)[2].toNat = x0.toNat % 10 := by
  have := x0.isLt
  simp only [decimalDigits, List.getElem_cons_zero, List.getElem_cons_succ, BitVec.toNat_ofNat]
  omega

/-- Settles O37: the range check decides between the two answers of the handler, and the completed one stores the three
digits (`toNat_decimalDigits`) and no other byte. -/
theorem decimalDigitsStored : Obligations.DecimalDigitsStored := by
  refine fun x s => ⟨fun hin => ?_, fun hout => accessing_outside ⟨by omega, by omega⟩⟩
  obtain ⟨t, hexec⟩ : ∃ t, execLdB x s = .next t := ⟨_, accessing_inside (by omega)⟩
  obtain ⟨-, rfl⟩ := accessing_next hexec
  have hread (j : Nat) (hj : j < 3) := Memory.read_writeBytes_offset s.mem s.i.toNat (bs := decimalDigits (s.getV x)) hj
  obtain ⟨hhundreds, htens, hones⟩ := toNat_decimalDigits (s.getV x)
  exact ⟨_, hexec, (congrArg _ (hread 0 (by decide))).trans hhundreds, (congrArg _ (hread 1 (by decide))).trans htens,
    (congrArg _ (hread 2 (by decide))).trans hones, memSameOutside_writeBytes (length_decimalDigits _) rfl, rfl,
    exec_frame (i := .ldB x) hexec⟩

/-- After an access inside memory `I` advances past the last byte without a wrap (R209, R210). -/
theorem toNat_index_past {i0 : Word} {x : BitVec 4} (h : i0.toNat + x.toNat ≤ 4095) :
    (i0 + x.setWidth 16 + 1).toNat = i0.toNat + x.toNat + 1 := by
  bv_omega

/-- Settles O38: the range check decides between the two answers of the handler, and the completed one stores the
registers in order (`getElem_regsUpTo`) and no other byte. -/
theorem registersStored : Obligations.RegistersStored := by
  refine fun x s => ⟨fun hin => ?_, fun hout => accessing_outside ⟨by omega, by omega⟩⟩
  obtain ⟨t, hexec⟩ : ∃ t, execStoreRegs x s = .next t := ⟨_, accessing_inside (by omega)⟩
  obtain ⟨-, rfl⟩ := accessing_next hexec
  refine ⟨_, hexec, fun z hz => ?_, memSameOutside_writeBytes (length_regsUpTo s x) rfl, toNat_index_past hin, rfl,
    exec_frame (i := .storeRegs x) hexec⟩
  have hlen : z.toNat < (s.regsUpTo x).length := by rw [length_regsUpTo]; omega
  exact (Memory.read_writeBytes_offset s.mem s.i.toNat hlen).trans (getElem_regsUpTo s x z hlen)

/-- Settles O39: the range check decides between the two answers of the handler, and the completed one loads the
registers up to `X` (`getV_regsLoaded`) and writes `I` and them alone. -/
theorem registersLoaded : Obligations.RegistersLoaded := by
  refine fun x s => ⟨fun hin => ?_, fun hout => accessing_outside ⟨by omega, by omega⟩⟩
  obtain ⟨t, hexec⟩ : ∃ t, execLoadRegs x s = .next t := ⟨_, accessing_inside (by omega)⟩
  obtain ⟨-, rfl⟩ := accessing_next hexec
  refine ⟨_, hexec, fun z hz => ?_, toNat_index_past hin, rfl, exec_frame (i := .loadRegs x) hexec⟩
  exact (getV_regsLoaded s _ x z rfl).trans (if_pos hz)

/-- Settles O40: the load reads each register from the byte (`registersLoaded`) where the store put it
(`registersStored`). -/
theorem storeThenLoadRestoresRegisters : Obligations.StoreThenLoadRestoresRegisters := by
  intro x s t u hstore hmem hi
  obtain ⟨hin, -⟩ := accessing_next hstore
  have hrange : s.i.toNat + x.toNat ≤ 4095 := by omega
  obtain ⟨hstores, -⟩ := registersStored x s
  obtain ⟨t', hstore', hstored, -⟩ := hstores hrange
  obtain rfl : t = t' := by injection hstore.symm.trans hstore'
  obtain ⟨hloads, -⟩ := registersLoaded x u
  obtain ⟨r, hload, hloaded, -⟩ := hloads (hi ▸ hrange)
  refine ⟨r, hload, fun z hz => ?_⟩
  rw [hloaded z hz, hmem, hi, hstored z hz]

end Sys2Proof.Machine
end

section
/-!
PROOFS. The statements of spec/50_host_interface.md: what a host's step is in each outcome of the cycle (R232, R239), an
image loaded or refused (R233, R234), the keypad (R235), the display operations (R236, R237), the redraw contract
(R241), and the invariant over every operation (R230).
-/

namespace Sys2Proof.Machine

/-! ## The step (spec/50_host_interface.md R232, R239) -/

/-- A data access completes or reports `MEM_RANGE` (R69, R255). -/
theorem accessing_answers (len : Nat) (s t : State) :
    (∃ u, accessing len s t = .next u) ∨ ∃ f, accessing len s t = .fault f := by
  by_cases h : 1 ≤ len ∧ 4096 < s.i.toNat + len
  · exact .inr ⟨_, accessing_outside h⟩
  · exact .inl ⟨_, accessing_inside (by omega)⟩

/-- Every handler completes or reports a condition. -/
theorem exec_answers (i : Instr) (s : State) : (∃ t, exec i s = .next t) ∨ ∃ f, exec i s = .fault f := by
  cases i with
  | ret =>
    obtain hsp | hsp := Nat.eq_zero_or_pos s.sp.val
    · exact .inr ⟨_, execRet_of_empty hsp⟩
    · exact .inl ⟨_, execRet_of_sp_pos hsp⟩
  | call nnn =>
    obtain hsp | hsp := Nat.lt_succ_iff_lt_or_eq.mp s.sp.isLt
    · exact .inl ⟨_, execCall_of_sp_lt nnn hsp⟩
    · exact .inr ⟨_, execCall_of_full nnn hsp⟩
  | skp x =>
    obtain hkey | hkey := le_or_gt (s.getV x).toNat 15
    · exact .inl ⟨_, execSkp_of_key hkey⟩
    · exact .inr ⟨_, execSkp_of_no_key hkey⟩
  | sknp x =>
    obtain hkey | hkey := le_or_gt (s.getV x).toNat 15
    · exact .inl ⟨_, execSknp_of_key hkey⟩
    · exact .inr ⟨_, execSknp_of_no_key hkey⟩
  | ldVxK x => exact .inl (execLdVxK_completes x s)
  | drw | ldB | storeRegs | loadRegs => exact accessing_answers ..
  | cls | jp | jpV0 | seImm | sneImm | seReg | sneReg | ldImm | addImm | ldReg | orReg | andReg | xorReg | addReg | sub
  | shr | subn | shl | ldI | rnd | ldVxDt | ldDtVx | addI | ldF => exact .inl ⟨_, rfl⟩

/-- A cycle whose fetch gives an instruction is its handler and the tick (R120). -/
theorem step_of_fetch_ok {s : State} {i : Instr} (h : s.fetch = .ok i) : step s = completeCycle (exec i s) := by
  simp only [step, h]

/-- Settles O46: a fetch that fails is reported, and the cycle of one that does not answers as its handler does
(`exec_answers`). -/
theorem stepIsNeverRefused : Obligations.StepIsNeverRefused := by
  intro s
  cases hfetch : s.fetch with
  | error f => exact .inr ⟨f, step_of_fetch_error hfetch⟩
  | ok i =>
    rw [step_of_fetch_ok hfetch]
    obtain ⟨t, ht⟩ | ⟨f, hf⟩ := exec_answers i s
    · exact .inl ⟨t.tick, by rw [ht, completeCycle]⟩
    · exact .inr ⟨f, by rw [hf, completeCycle]⟩

/-- Settles O51: the two outcomes of the cycle, seen by the host (`hostStep_next`, `hostStep_fault`); the codes are
those of `Fault.code`. -/
theorem hostStepDrivesDiagnostic : Obligations.HostStepDrivesDiagnostic := fun _ =>
  ⟨fun _ => hostStep_next,
    fun _ => ⟨hostStep_fault, hostStep_fault, hostStep_fault, hostStep_fault, hostStep_fault, hostStep_fault⟩⟩

/-! ## The load (spec/50_host_interface.md R233, R234) -/

/-- Settles O54: an accepted load is a multi-byte store of the image at 512 and nothing else (`loadImage_accepted`). -/
theorem loadPlacesImage : Obligations.LoadPlacesImage := fun _ s hlen =>
  ⟨_, loadImage_accepted hlen s, fun _ hk => Memory.read_writeBytes_offset s.mem 512 hk,
    memSameOutside_writeBytes rfl rfl, .of_v_eq rfl fun p hp => by cases p <;> simp [Keeps] at *, rfl⟩

/-- Settles O55: a longer image is refused whole (`loadImage_refused`), and its length, cut to 65535, fits the 16 bits
of `aux`. -/
theorem loadTooLongIsRefused : Obligations.LoadTooLongIsRefused := fun image s hlen =>
  ⟨_, loadImage_refused hlen s, by rw [BitVec.toNat_ofNat]; omega⟩

/-! ## The keypad (spec/50_host_interface.md R235) -/

/-- `set_key` writes the bit of its key and leaves the other bits (R32, R235). -/
theorem getLsbD_setKey (k : BitVec 4) (b : Bool) (s : State) {j : Nat} (hj : j < 16) :
    (setKey k b s).key.getLsbD j = if j = k.toNat then b else s.key.getLsbD j := by
  by_cases h : j = k.toNat
  · subst h
    cases b <;> simp [setKey, hj]
  · cases b <;> simp [setKey, h, hj]

/-- Settles O56: each bit of `KEY` is as `getLsbD_setKey` says, and no other field is written. -/
theorem setKeyChangesOneKey : Obligations.SetKeyChangesOneKey := fun k b s =>
  ⟨setKey k b s, rfl, fun _ => getLsbD_setKey k b s,
    .of_v_eq rfl fun p hp => by cases p <;> simp [Keeps, setKey] at *, rfl⟩

/-! ## The display (spec/50_host_interface.md R236, R237, R241) -/

/-- Settles O57: a cell number of 11 bits lies inside the framebuffer, so `read_fb` returns the cell
(`fbCell_inside`). -/
theorem displayOperations : Obligations.DisplayOperations := fun s =>
  ⟨fun c => by rw [hostOp, fbCell_inside s.fb (by omega)], rfl, rfl⟩

/-- `00E0` and `DXYN` are the only instructions that write the display (R30, R31). -/
theorem display_mem_writesParts {i : Instr} (h : Part.display ∈ writesParts i) :
    i = .cls ∨ ∃ x y n, i = .drw x y n := by
  cases i with
  | cls => exact .inl rfl
  | drw x y n => exact .inr ⟨x, y, n, rfl⟩
  | _ => simp [writesParts] at h

/-- No instruction writes the keypad (R32). -/
theorem keypad_notMem_writesParts (i : Instr) : Part.keypad ∉ writesParts i := by
  cases i <;> simp [writesParts]

/-- A handler sets `REDRAW` or leaves the display as it is (R241). -/
theorem exec_display {i : Instr} {s t : State} (h : exec i s = .next t) :
    t.redraw = true ∨ t.fb = s.fb ∧ t.redraw = s.redraw := by
  by_cases hi : Part.display ∈ writesParts i
  · left
    obtain rfl | ⟨x, y, n, rfl⟩ := display_mem_writesParts hi
    · injection h with h
      subst h
      rfl
    · obtain ⟨-, -, hredraw, -⟩ := execDrw_next h
      exact hredraw
  · obtain ⟨-, hparts⟩ := exec_frame h
    exact .inr (hparts .display hi)

/-- Settles O48: the handler sets `REDRAW` or leaves the display (`exec_display`), its frame holds the keypad, and the
tick writes neither. -/
theorem redrawCoversEveryChange : Obligations.RedrawCoversEveryChange := by
  intro s t h
  obtain ⟨i, u, -, -, hexec, rfl⟩ := step_next h
  obtain ⟨-, hparts⟩ := exec_frame hexec
  have hkey : u.key = s.key := hparts .keypad (keypad_notMem_writesParts i)
  obtain hset | ⟨hfb, hredraw⟩ := exec_display hexec
  · exact ⟨fun _ => hset, fun _ => hset, hkey⟩
  · exact ⟨fun hs => hredraw.trans hs, fun hne => absurd hfb hne, hkey⟩

/-! ## The invariant (spec/50_host_interface.md R230) -/

/-- The position in the random input is no part of the invariant, so a reset establishes it from every state (R290). -/
theorem hostReset_inv (s : State) : (hostReset s).Inv := resetHasInvariant.congr rfl rfl rfl

/-- A load keeps the invariant: an accepted image lies between 512 and 4095, and a longer one writes nothing (R233,
R234). -/
theorem State.Inv.loadImage {s : State} (hs : s.Inv) (image : List Byte) : (loadImage image s).1.Inv := by
  obtain hlen | hlen := le_or_gt image.length Config.maxProgram
  · rw [loadImage_accepted hlen]
    exact hs.writeBytes (by simp only [Config.programBase, Config.maxProgram] at *; omega)
  · rw [loadImage_refused hlen]
    exact hs

/-- A host's step keeps the invariant: a completed cycle does (`stepKeepsInvariant`), and a reported one leaves the
state (R251). -/
theorem State.Inv.hostStep {s : State} (hs : s.Inv) : (hostStep s).1.Inv := by
  obtain ⟨t, ht⟩ | ⟨f, hf⟩ := stepIsNeverRefused s
  · rw [hostStep_next ht]
    exact stepKeepsInvariant s t hs ht
  · rw [hostStep_fault hf]
    exact hs

/-- Settles O43, operation by operation: a reset, a load and a step by their own lemmas; the others write at most the
keypad or `REDRAW`, of which the invariant does not speak. -/
theorem hostOperationsKeepInvariant : Obligations.HostOperationsKeepInvariant := by
  intro op s hs
  cases op with
  | reset => exact hostReset_inv s
  | load image => exact hs.loadImage image
  | step => exact hs.hostStep
  | setKey | clearRedraw => exact hs.congr rfl rfl rfl
  | readFb | readRedraw => exact hs

end Sys2Proof.Machine
end

section
/-!
PROOFS. The statements of spec/60_exceptions.md: which handler reports which condition and when (R250, R253 to R255,
R257, R259), the unrecognised word (R252), and a reported condition that holds (R251).
-/

namespace Sys2Proof.Machine

/-! ## The handlers that report (spec/60_exceptions.md R253 to R255, R257) -/

/-- `00EE` reports exactly on an empty stack (R254). -/
theorem execRet_eq_fault {s : State} {f : Fault} :
    execRet s = .fault f ↔ f = .stackUnderflow ⟨s.pc, s.fetchWord, 0⟩ ∧ s.sp.val = 0 := by
  obtain hsp | hsp := Nat.eq_zero_or_pos s.sp.val
  · simp [execRet_of_empty hsp, hsp, eq_comm]
  · simp [execRet_of_sp_pos hsp, hsp.ne']

/-- `2NNN` reports exactly on a full stack (R253). -/
theorem execCall_eq_fault {nnn : BitVec 12} {s : State} {f : Fault} :
    execCall nnn s = .fault f ↔ f = .stackOverflow ⟨s.pc, s.fetchWord, 16⟩ ∧ s.sp.val = 16 := by
  obtain hsp | hsp := Nat.lt_succ_iff_lt_or_eq.mp s.sp.isLt
  · simp [execCall_of_sp_lt nnn hsp, hsp.ne]
  · simp [execCall_of_full nnn hsp, hsp, eq_comm]

/-- `EX9E` reports exactly when `V[X]` names no key (R257). -/
theorem execSkp_eq_fault {x : BitVec 4} {s : State} {f : Fault} :
    execSkp x s = .fault f ↔
      f = .keyRange ⟨s.pc, s.fetchWord, (s.getV x).setWidth 16⟩ ∧ 15 < (s.getV x).toNat := by
  obtain hkey | hkey := le_or_gt (s.getV x).toNat 15
  · simp [execSkp_of_key hkey, hkey]
  · simp [execSkp_of_no_key hkey, hkey, eq_comm]

/-- `EXA1` reports exactly when `V[X]` names no key (R257). -/
theorem execSknp_eq_fault {x : BitVec 4} {s : State} {f : Fault} :
    execSknp x s = .fault f ↔
      f = .keyRange ⟨s.pc, s.fetchWord, (s.getV x).setWidth 16⟩ ∧ 15 < (s.getV x).toNat := by
  obtain hkey | hkey := le_or_gt (s.getV x).toNat 15
  · simp [execSknp_of_key hkey, hkey]
  · simp [execSknp_of_no_key hkey, hkey, eq_comm]

/-- A data access reports exactly when a byte is touched and the last one lies above 4095 (R69, R255). -/
theorem accessing_eq_fault {len : Nat} {s t : State} {f : Fault} :
    accessing len s t = .fault f ↔
      f = .memRange ⟨s.pc, s.fetchWord, s.i⟩ ∧ 1 ≤ len ∧ s.i.toNat + len - 1 > 4095 := by
  constructor
  · intro h
    obtain ⟨rfl, hlen, hout⟩ := accessing_fault h
    exact ⟨rfl, hlen, by omega⟩
  · rintro ⟨rfl, hlen, hout⟩
    exact accessing_outside ⟨hlen, by omega⟩

/-- What a handler reports, and when: one condition for each instruction that has one, and none for any other (R250,
R259). -/
theorem exec_eq_fault {i : Instr} {s : State} {f : Fault} :
    exec i s = .fault f ↔
      (f = .stackOverflow ⟨s.pc, s.fetchWord, 16⟩ ∧ (∃ nnn, i = .call nnn) ∧ s.sp.val = 16) ∨
      (f = .stackUnderflow ⟨s.pc, s.fetchWord, 0⟩ ∧ i = .ret ∧ s.sp.val = 0) ∨
      (f = .memRange ⟨s.pc, s.fetchWord, s.i⟩ ∧ 1 ≤ dataBytes i ∧ s.i.toNat + dataBytes i - 1 > 4095) ∨
      ∃ x, f = .keyRange ⟨s.pc, s.fetchWord, (s.getV x).setWidth 16⟩ ∧ (i = .skp x ∨ i = .sknp x) ∧
        15 < (s.getV x).toNat := by
  cases i with
  | call nnn => exact execCall_eq_fault.trans (by simp [dataBytes])
  | ret => exact execRet_eq_fault.trans (by simp [dataBytes])
  | drw | ldB | storeRegs | loadRegs => exact accessing_eq_fault.trans (by simp [dataBytes])
  | skp x => exact execSkp_eq_fault.trans (by simp [dataBytes])
  | sknp x => exact execSknp_eq_fault.trans (by simp [dataBytes])
  | ldVxK x =>
    obtain ⟨t, ht⟩ := execLdVxK_completes x s
    simp [exec, ht, dataBytes]
  | cls | jp | jpV0 | seImm | sneImm | seReg | sneReg | ldImm | addImm | ldReg | orReg | andReg | xorReg | addReg | sub
  | shr | subn | shl | ldI | rnd | ldVxDt | ldDtVx | addI | ldF =>
    exact iff_of_false nofun (by simp [dataBytes])

/-- Settles O45, handler by handler (`exec_eq_fault`). -/
theorem conditionsComeOnlyFromTheirInstructions : Obligations.ConditionsComeOnlyFromTheirInstructions :=
  fun _ _ _ h => exec_eq_fault.mp h

/-- Settles O29: the four instructions are data accesses of `N`, 3 and `X + 1` bytes (`accessing_eq_fault`), and the
other three complete in every state. -/
theorem dataPastMemoryIsReported : Obligations.DataPastMemoryIsReported := by
  refine fun s => ⟨fun x y n => ?_, fun x => ⟨?_, ?_, ?_⟩, fun nnn x r => ⟨nofun, nofun, nofun⟩⟩
  · exact accessing_eq_fault.trans (and_iff_right rfl)
  all_goals
    refine accessing_eq_fault.trans ⟨fun ⟨_, _, hout⟩ => ?_, fun hout => ⟨rfl, ?_, ?_⟩⟩ <;> omega

/-! ## The unrecognised word (spec/60_exceptions.md R252) -/

/-- From an in-range `pc` the fetch of a word of no row reports it (R252). -/
theorem State.fetch_of_unknown {s : State} {w : Word} (hpc : s.pc.toNat ≤ 4094) (hd : decode s.fetchWord = .unknown w) :
    s.fetch = .error (.unknownInstruction ⟨s.pc, w, 0⟩) := by
  rw [State.fetch, if_neg (Nat.not_lt.mpr hpc), hd]

/-- Settles O8: the fetch reports the word (`State.fetch_of_unknown`), and its report is the whole cycle. -/
theorem unknownWordIsReported : Obligations.UnknownWordIsReported :=
  fun _ hpc hd => step_of_fetch_error (State.fetch_of_unknown hpc hd)

/-! ## A reported condition holds (spec/60_exceptions.md R251) -/

/-- The core holds exactly when the fetch reports, or the handler of the fetched instruction does (R120, R251). -/
theorem State.holds_iff {s : State} {f : Fault} :
    s.Holds f ↔ s.fetch = .error f ∨ ∃ i, s.fetch = .ok i ∧ exec i s = .fault f := by
  rw [State.Holds]
  cases hfetch : s.fetch with
  | error g => simp [step_of_fetch_error hfetch]
  | ok i => cases hexec : exec i s <;> simp [step_of_fetch_ok hfetch, hexec, completeCycle]

/-- A condition is a function of `V`, `I`, `pc`, `SP` and memory: the fetch reads `pc` and memory, and what a handler
reports (`exec_eq_fault`) depends beside them on `V`, `I` and `SP` alone (R251). -/
theorem State.Holds.congr {s t : State} {f : Fault} (h : s.Holds f) (hv : t.v = s.v) (hi : t.i = s.i)
    (hpc : t.pc = s.pc) (hsp : t.sp = s.sp) (hmem : t.mem = s.mem) : t.Holds f := by
  have hword : t.fetchWord = s.fetchWord := by rw [State.fetchWord, State.fetchWord, hpc, hmem]
  have hfetch : t.fetch = s.fetch := by rw [State.fetch, State.fetch, hpc, hword]
  have hreg := State.getV_congr hv
  rw [State.holds_iff] at h ⊢
  simpa only [exec_eq_fault, hfetch, hword, hreg, hi, hpc, hsp] using h

/-- A host's operation during a run leaves a held core held: a step leaves the state, and the others write at most the
keypad or `REDRAW`, of which no condition is a function (R240, R251). -/
theorem State.Holds.hostOp {s : State} {f : Fault} (h : s.Holds f) {op : HostOp} (hop : op.duringRun = true) :
    (hostOp op s).1.Holds f := by
  cases op with
  | reset | load => cases hop
  | step =>
    rw [Machine.hostOp, hostStep_fault h]
    exact h
  | setKey | clearRedraw => exact h.congr rfl rfl rfl rfl rfl
  | readFb | readRedraw => exact h

/-- So does a list of them, by induction on the list. -/
theorem State.Holds.hostRun {s : State} {f : Fault} (h : s.Holds f) {ops : List HostOp}
    (hops : ops.all HostOp.duringRun = true) : (hostRun ops s).Holds f := by
  induction ops generalizing s with
  | nil => exact h
  | cons op rest ih =>
    obtain ⟨hop, hrest⟩ := Bool.and_eq_true_iff.mp hops
    exact ih (h.hostOp hop) hrest

/-- Settles O50: the run leaves the core held (`State.Holds.hostRun`), and the step of a held core drives the record and
leaves the state (`hostStep_fault`). -/
theorem heldCoreStaysHeld : Obligations.HeldCoreStaysHeld := by
  intro s f ops h hops
  have hheld := h.hostRun hops
  exact ⟨hheld, hostStep_fault hheld⟩

end Sys2Proof.Machine
end

section
/-!
PROOFS. The statements of spec/70_reset_and_hazards.md: what a reset leaves (R290) and the first step when no program
was loaded (R292).
-/

namespace Sys2Proof.Machine

/-! ## Reset (spec/70_reset_and_hazards.md R290) -/

@[simp] theorem getV_reset (x : BitVec 4) : State.reset.getV x = 0 := by simp [State.getV, State.reset]

@[simp] theorem getElem_reset_stack {j : Nat} (hj : j < 16) : State.reset.stack[j] = 0 := Vector.getElem_replicate hj

/-- In the font an unlisted address reads as its font byte (R62). -/
theorem Memory.unlisted_of_font {a : Nat} (h : a < Config.font.length) : Memory.unlisted a = Config.font[a] :=
  (List.getElem_eq_getD 0).symm

/-- Settles O52: a reset leaves the fields of the reset state (`hostReset_v` and its companions), memory there reads as
the font and zeros (`Memory.read_reset`), its framebuffer is the cleared one (`fbClear`), and every other value is a
constant. -/
theorem resetValues : Obligations.ResetValues := by
  refine fun s => ⟨rfl, getV_reset, rfl, rfl, rfl, fun j => getElem_reset_stack j.isLt, ?_, ?_, rfl, ?_, rfl, ?_, rfl⟩
  · exact fun a ha _ => Memory.unlisted_above_font ha
  · exact fun a ha => Memory.unlisted_of_font ha
  · exact fun c _ => fbCell_fbClear c
  · exact fun k _ => BitVec.getLsbD_zero

/-! ## The first step (spec/70_reset_and_hazards.md R292) -/

/-- Addresses 512 and 513 lie above the font, so with no program loaded the word there is 0 (R37, R292). -/
theorem fetchWord_reset : State.reset.fetchWord = 0 := by
  have hread {a : Nat} (ha : 80 ≤ a) : State.reset.mem.read a = 0 := Memory.unlisted_above_font ha
  rw [State.fetchWord, hread (by decide), hread (by decide)]
  rfl

/-- Settles O53: the word at 512 is 0 (`fetchWord_reset`), which selects no row, so the fetch reports it
(`State.fetch_of_unknown`). -/
theorem firstStepWithoutProgram : Obligations.FirstStepWithoutProgram := by
  have hd : decode State.reset.fetchWord = .unknown 0 := by
    rw [fetchWord_reset]
    decide
  exact step_of_fetch_error (State.fetch_of_unknown (by decide) hd)

end Sys2Proof.Machine
end
